-- ==== Sys2Proof/Word.lean ====
section
/-! DEFINITION. The word types: every register, data value and address is 8 bits wide (R5, R7). -/

namespace Sys2Proof

/-- A data value: the contents of a memory cell or of AC (R5, XLEN = 8). -/
abbrev Byte := BitVec 8

/-- An address: the contents of PC or RS, and the index of a memory cell (R5, ALEN = 8). Its arithmetic
wraps modulo 256, as all addressing does (R31). -/
abbrev Addr := BitVec 8

end Sys2Proof
end

