-- ==== Sys2Proof/Syntax.lean ====
section
/-! DEFINITION. The instruction set as syntax: one constructor per row of the opcode table (R56). -/

namespace Sys2Proof

/-- The four addressing modes (R55). -/
inductive Mode where
  /-- Mode 0, `#value`; also what the assembler emits when there is no operand. -/
  | immediate
  /-- Mode 1, `value`. -/
  | direct
  /-- Mode 2, `value,I`. -/
  | indirect
  /-- Mode 3, `value,R`. -/
  | relative
deriving DecidableEq, Repr

/-- The 14 instructions, in the order of their opcodes (R56). A format O instruction carries its mode and its
operand byte (R50 to R52); a format Z instruction carries nothing, because its mode is ignored (R60). The
reserved bits 1:0 of the opcode byte are not part of an instruction (R54). -/
inductive Instr where
  /-- NOT, opcode 0x0 (R105). -/
  | not
  /-- STA, opcode 0x1 (R100). -/
  | sta (mode : Mode) (opnd : Byte)
  /-- LDA, opcode 0x4 (R101). -/
  | lda (mode : Mode) (opnd : Byte)
  /-- ADD, opcode 0x5 (R106). -/
  | add (mode : Mode) (opnd : Byte)
  /-- OR, opcode 0x6 (R107). -/
  | or (mode : Mode) (opnd : Byte)
  /-- AND, opcode 0x7 (R108). -/
  | and (mode : Mode) (opnd : Byte)
  /-- JMP, opcode 0x8 (R116). -/
  | jmp (mode : Mode) (opnd : Byte)
  /-- JC, opcode 0x9 (R117). -/
  | jc (mode : Mode) (opnd : Byte)
  /-- JN, opcode 0xA (R118). -/
  | jn (mode : Mode) (opnd : Byte)
  /-- JZ, opcode 0xB (R119). -/
  | jz (mode : Mode) (opnd : Byte)
  /-- JSR, opcode 0xC (R121). -/
  | jsr (mode : Mode) (opnd : Byte)
  /-- RTS, opcode 0xD (R122). -/
  | rts
  /-- JV, opcode 0xE (R120). -/
  | jv (mode : Mode) (opnd : Byte)
  /-- HLT, opcode 0xF (R128). -/
  | hlt
deriving DecidableEq, Repr

end Sys2Proof
end

