-- ==== Sys2Proof/Decode.lean ====
section
/-! DEFINITION. The decoder, total on any bytes and rejecting by name, then the encoder, both written from the
field layout of R51, R52 and the opcode map of R56. -/

namespace Sys2Proof

/-! ### The fields of the opcode byte -/

/-- The mode whose number is the two-bit field `m` (R55). -/
def Mode.ofBits (m : BitVec 2) : Mode :=
  match m.toNat with
  | 0 => .immediate
  | 1 => .direct
  | 2 => .indirect
  | _ => .relative

/-- The number of a mode (R55). -/
def Mode.toBits : Mode → BitVec 2
  | .immediate => 0
  | .direct => 1
  | .indirect => 2
  | .relative => 3

/-- The `opcode` field, bits 7:4 of the opcode byte (R51). -/
def opcodeField (b : Byte) : BitVec 4 := b.extractLsb' 4 4

/-- The `mode` field, bits 3:2 of the opcode byte (R51). -/
def modeField (b : Byte) : Mode := Mode.ofBits (b.extractLsb' 2 2)

/-- `Decode(b) = (opcode, mode)` (R53). Bits 1:0 are not examined (R54). -/
def decodeFields (b : Byte) : BitVec 4 × Mode := (opcodeField b, modeField b)

/-- `Encode(opcode, mode) = (opcode << 4) | (mode << 2)`, a byte with bits 1:0 zero (R68). -/
def encodeFields (opcode : BitVec 4) (mode : Mode) : Byte :=
  (opcode.setWidth 8 <<< 4) ||| (mode.toBits.setWidth 8 <<< 2)

/-! ### The opcode map -/

/-- The row of the opcode map (R56) for an `opcode` field, with the mode and the operand byte put in its
place. The mode of NOT, RTS and HLT is ignored (R60); opcodes 0x2 and 0x3 name no instruction (R58). -/
def instrOfFields (opcode : BitVec 4) (mode : Mode) (opnd : Byte) : Option Instr :=
  match opcode.toNat with
  | 0x0 => some .not
  | 0x1 => some (.sta mode opnd)
  | 0x4 => some (.lda mode opnd)
  | 0x5 => some (.add mode opnd)
  | 0x6 => some (.or mode opnd)
  | 0x7 => some (.and mode opnd)
  | 0x8 => some (.jmp mode opnd)
  | 0x9 => some (.jc mode opnd)
  | 0xA => some (.jn mode opnd)
  | 0xB => some (.jz mode opnd)
  | 0xC => some (.jsr mode opnd)
  | 0xD => some .rts
  | 0xE => some (.jv mode opnd)
  | 0xF => some .hlt
  | _ => none

/-- The length in bytes of the instruction with this `opcode` field; none for 0x2 and 0x3 (R57). -/
def lengthOfOpcode (opcode : BitVec 4) : Option Nat :=
  match opcode.toNat with
  | 0x0 | 0xD | 0xF => some 1
  | 0x2 | 0x3 => none
  | _ => some 2

/-- The instruction whose opcode byte is `b` and whose operand byte, where it has one, is `opnd`; none where
the opcode is unknown (R53, R56, R58). -/
def decodeBytes (b opnd : Byte) : Option Instr :=
  instrOfFields (opcodeField b) (modeField b) opnd

/-- Why a sequence of bytes is no instruction. -/
inductive DecodeError where
  /-- The opcode is 0x2 or 0x3 (R58). -/
  | unknownOpcode
  /-- The sequence ends before the instruction does. A fetch from memory never meets this: PC wraps (R12). -/
  | truncated
deriving DecidableEq, Repr

/-- The decoder over a sequence of bytes: the first instruction and the bytes after it. The opcode byte comes
first, the operand byte second (R33, R50), and the length is a function of the opcode alone (R57). -/
def decode : List Byte → Except DecodeError (Instr × List Byte)
  | [] => .error .truncated
  | b :: rest =>
    match lengthOfOpcode (opcodeField b), rest with
    | none, _ => .error .unknownOpcode
    | some 1, rest =>
      match decodeBytes b 0 with
      | some i => .ok (i, rest)
      | none => .error .unknownOpcode
    | some _, [] => .error .truncated
    | some _, opnd :: rest' =>
      match decodeBytes b opnd with
      | some i => .ok (i, rest')
      | none => .error .unknownOpcode

/-! ### The encoder -/

/-- The opcode number of an instruction (R56, R79). -/
def Instr.opcode : Instr → BitVec 4
  | .not => 0x0
  | .sta _ _ => 0x1
  | .lda _ _ => 0x4
  | .add _ _ => 0x5
  | .or _ _ => 0x6
  | .and _ _ => 0x7
  | .jmp _ _ => 0x8
  | .jc _ _ => 0x9
  | .jn _ _ => 0xA
  | .jz _ _ => 0xB
  | .jsr _ _ => 0xC
  | .rts => 0xD
  | .jv _ _ => 0xE
  | .hlt => 0xF

/-- The mode number that is emitted for an instruction: its own, or 0 where it has no operand (R55). -/
def Instr.mode : Instr → Mode
  | .sta m _ | .lda m _ | .add m _ | .or m _ | .and m _ => m
  | .jmp m _ | .jc m _ | .jn m _ | .jz m _ | .jsr m _ | .jv m _ => m
  | .not | .rts | .hlt => .immediate

/-- The operand byte of a format O instruction (R50, R52). -/
def Instr.operand : Instr → Option Byte
  | .sta _ o | .lda _ o | .add _ o | .or _ o | .and _ o => some o
  | .jmp _ o | .jc _ o | .jn _ o | .jz _ o | .jsr _ o | .jv _ o => some o
  | .not | .rts | .hlt => none

/-- The bytes of an instruction, the opcode byte first (R50, R68). -/
def encode (i : Instr) : List Byte :=
  encodeFields i.opcode i.mode :: i.operand.toList

/-- The length of an instruction in bytes (R50, R57). -/
def Instr.size (i : Instr) : Nat := (encode i).length

/-! ### The opcode table's numbering -/

/-- The two bytes of an instruction given as the opcode table numbers its bits: the opcode byte is bits 7:0,
the operand byte bits 15:8; every bit from `nbits` on is zero. -/
def tableBytes (nbits w : Nat) : Byte × Byte :=
  (BitVec.ofNat 8 (w % 2 ^ nbits), BitVec.ofNat 8 (w % 2 ^ nbits / 256))

/-- What the decoder reads from an instruction whose bits are `w`, numbered as the opcode table numbers them. -/
def decodeTableWord (nbits w : Nat) : Option Instr :=
  match decode [(tableBytes nbits w).1, (tableBytes nbits w).2] with
  | .ok (i, _) => some i
  | .error _ => none

end Sys2Proof
end

