-- ==== Sys2Proof/Config.lean ====
section
/-! DEFINITION. What the spec leaves to an implementation. The hardware has no parameter (R5); the toolchain has
one, `ASM_ADDR_OVERFLOW` (R6, D17). The other open parameter, `FUEL` (D14), is the argument of `Machine.run`. -/

namespace Sys2Proof

/-- `MEM_SIZE`, the number of memory cells, addresses 0 to 255 (R5). -/
abbrev memSize : Nat := 256

/-- `ASM_ADDR_OVERFLOW`: what the assembler does when its address counter would pass 255 (R82, D17). It stays
open: every definition of the assembler takes it as an argument. -/
inductive AddrOverflow where
  /-- The counter is reduced modulo 256. -/
  | wrap
  /-- The assembly fails. -/
  | fail
deriving DecidableEq, Repr

end Sys2Proof
end

