-- ==== Sys2Proof/Machine/State.lean ====
section
/-! DEFINITION. The machine's state, the reasons a step can stop, and the state after reset. -/

namespace Sys2Proof.Machine

/-- The 256-byte memory as the list of its cells that do not hold 0x00, addresses strictly rising
(`Memory.wf`). The address of a cell is a Nat below 256, reached from an 8-bit address by `toNat`. -/
abbrev Memory := List Host.Cell

/-- The architectural state, exactly the tuple of R10: 2076 bits and no other persistent state. -/
structure State where
  /-- Memory: 256 cells of 8 bits, for code and data alike (R22, R30). -/
  mem : Memory
  /-- AC, the accumulator, the sole general-purpose register (R11). -/
  ac : Byte
  /-- PC, the address of the next byte to fetch (R12). -/
  pc : Addr
  /-- RS, the single return-address slot (R14). -/
  rs : Addr
  /-- C, Carry: the unsigned overflow of the last ADD (R16). -/
  c : Bool
  /-- V, Overflow: the signed overflow of the last ADD (R17). -/
  v : Bool
  /-- N, Negative: bit 7 of the last flag-updating result (R18). -/
  n : Bool
  /-- Z, Zero: the last flag-updating result was 0 (R18). -/
  z : Bool
deriving DecidableEq, Repr

/-- The two execution errors (R130, R134). Each is fatal to the run and carries `a0`, the address of the
instruction's opcode byte. The step that ends so has changed neither memory nor AC, RS or a flag, and PC after it
is unspecified, so no state comes with it (R133). -/
inductive Fault where
  /-- The opcode byte at `a0` has opcode 0x2 or 0x3. Raised by the step's decode (R131). Safe: the spec itself
  ends the run here. -/
  | unknownOpcode (a0 : Addr)
  /-- The instruction at `a0` is STA with Immediate mode. Raised by STA (R132). Safe: the spec itself ends the
  run here. -/
  | invalidAddressingMode (a0 : Addr)
deriving DecidableEq, Repr

/-- Reasons to give an instruction no meaning. The model gives every instruction its meaning, so that no step
answers one. -/
inductive Refusal where
  /-- Raised by an arm of `exec` whose instruction has no meaning yet; there is no such arm. Safe: a refusal
  claims nothing of the hardware. -/
  | notModelled (mnemonic : String)
deriving DecidableEq, Repr

/-- The state after reset (R25, R150): every memory cell 0x00, PC, AC and RS 0x00, the four flags 0. The value
of memory is the source's; the others are the spec's decision D1 (log entry 1, DESIGN CHOICE). -/
def State.reset : State where
  mem := []
  ac := 0
  pc := 0
  rs := 0
  c := false
  v := false
  n := false
  z := false

end Sys2Proof.Machine
end

