-- ==== Sys2Proof/Machine/Ops.lean ====
section
/-! DEFINITION. The named operations over memory and registers, the fetch, and raising an execution error. -/

namespace Sys2Proof.Machine

/-! ### Memory -/

/-- What an address that is not listed reads as: 0x00, the value that reset gives every cell and that a cell
the loader did not write keeps (R25, R46; log entry 2). -/
def Memory.unlisted : Byte := 0

/-- The byte that the cell with number `a` holds. -/
def Memory.read : Memory → Nat → Byte
  | [], _ => Memory.unlisted
  | (b, w) :: m, a => if a = b then w else Memory.read m a

/-- The memory with nothing listed for cell `a`. -/
def Memory.erase : Memory → Nat → Memory
  | [], _ => []
  | (b, w) :: m, a => if a = b then Memory.erase m a else (b, w) :: Memory.erase m a

/-- The memory with the pair `(a, v)` put before the first listed address above `a`. -/
def Memory.insert : Memory → Nat → Byte → Memory
  | [], a, v => [(a, v)]
  | (b, w) :: m, a, v => if a < b then (a, v) :: (b, w) :: m else (b, w) :: Memory.insert m a v

/-- Cell `a` takes the byte `v` and no other cell changes (R32). Writing what an unlisted address reads as
removes the entry, so that equal memories are equal lists. -/
def Memory.write (m : Memory) (a : Nat) (v : Byte) : Memory :=
  if v = Memory.unlisted then Memory.erase m a else Memory.insert (Memory.erase m a) a v

/-- The entries from a list of cells all lie at `lo` or above, rise strictly, lie below 256, and none equals
what an unlisted address reads as. -/
def Memory.wfFrom : Nat → Memory → Bool
  | _, [] => true
  | lo, (b, w) :: m => decide (lo ≤ b) && decide (b < memSize) && w != Memory.unlisted && Memory.wfFrom (b + 1) m

/-- The canonical form of a memory: addresses strictly rising and below 256, no entry holding 0x00. -/
def Memory.wf (m : Memory) : Bool := Memory.wfFrom 0 m

/-- `MemRead(a, 1)` (R32): it changes nothing, and no address is out of range (R31). -/
def State.memRead (s : State) (a : Addr) : Byte := Memory.read s.mem a.toNat

/-- `MemWrite(a, 1, v)` (R32). -/
def State.memWrite (s : State) (a : Addr) (v : Byte) : State :=
  { s with mem := Memory.write s.mem a.toNat v }

/-! ### Registers -/

/-- `AC <- v` (R8, R11). -/
def State.setAC (s : State) (v : Byte) : State := { s with ac := v }

/-- `PC <- a` (R8, R12). -/
def State.setPC (s : State) (a : Addr) : State := { s with pc := a }

/-- `RS <- a` (R8, R14). -/
def State.setRS (s : State) (a : Addr) : State := { s with rs := a }

/-- `PC <- (PC + 1) mod 256`, past one byte of the instruction (R12, R62, R63). -/
def State.advance (s : State) : State := s.setPC (s.pc + 1)

/-! ### The fetch -/

/-- The opcode byte of the step that begins in `s`, `MemRead(a0, 1)` (R62). -/
def State.opcodeByte (s : State) : Byte := s.memRead s.pc

/-- The byte after the opcode byte, the operand byte of a two-byte instruction: `MemRead((a0 + 1) mod 256, 1)`
(R12, R63). -/
def State.operandByte (s : State) : Byte := s.memRead (s.pc + 1)

/-- The instruction at PC; none where its opcode is unknown (R53, R58, R62). A one-byte instruction does not
depend on the byte after it, and reads have no side effect (R35; log entry 10). -/
def fetchInstr (s : State) : Option Instr := decodeBytes s.opcodeByte s.operandByte

/-- The two bytes of an instruction stored at PC, where the next step fetches (R12, R50). -/
def State.placeBytes (s : State) (b opnd : Byte) : State :=
  (s.memWrite s.pc b).memWrite (s.pc + 1) opnd

/-! ### Execution errors -/

/-- `raise kind(a0)`: the step that began in `s`, so that `a0` is its PC, ends with this execution error, and
nothing is written (R8, R131 to R133). There is no trap entry, no saved register and no return: the error goes to
the caller of the step (R137, R138). -/
def raiseError (kind : Addr → Fault) (s : State) : Host.Outcome State Fault Refusal :=
  .fault (kind s.pc)

end Sys2Proof.Machine
end

