-- ==== Sys2Proof/Machine/Flags.lean ====
section
/-! DEFINITION. Every flag computation of the spec (R16 to R20, R106), and writing AC together with N and Z. -/

namespace Sys2Proof.Machine

/-- `UpdateNZ(v)`: `N <- v[7]; Z <- (v == 0)` (R19). -/
def State.updateNZ (s : State) (v : Byte) : State :=
  { s with n := v.getLsbD 7, z := v == 0 }

/-- `C <- c`, `V <- v`: both are assigned by every ADD, set or cleared (R16, R17, R106; the spec's decision D11,
log entry 9). -/
def State.setCV (s : State) (c v : Bool) : State := { s with c := c, v := v }

/-- `AC <- r; UpdateNZ(AC)`, the end of NOT, LDA, ADD, OR and AND (R20, R101, R105 to R108). -/
def State.loadAC (s : State) (r : Byte) : State := (s.setAC r).updateNZ r

/-- The exact sum of two bytes, an integer in 0 to 510 (R106). -/
def addSum (a b : Byte) : Nat := a.toNat + b.toNat

/-- The sum modulo 256 (R106, R109). -/
def addResult (a b : Byte) : Byte := BitVec.ofNat 8 (addSum a b)

/-- C after ADD: the exact sum is greater than 255 (R16, R106). -/
def addCarry (a b : Byte) : Bool := decide (addSum a b > 255)

/-- V after ADD: the operands share their sign bit and the result's differs from it (R17, R106). -/
def addOverflow (a b : Byte) : Bool :=
  a.getLsbD 7 == b.getLsbD 7 && (addResult a b).getLsbD 7 != a.getLsbD 7

end Sys2Proof.Machine
end

