-- ==== Sys2Proof/Machine/Operands.lean ====
section
/-! DEFINITION. Operand resolution (R61, R64 to R66). In each function `s` is the state after the operand byte is
consumed, so that its PC is `(a0 + 2) mod 256`. -/

namespace Sys2Proof.Machine

/-- `signed8(b)`: the two's-complement reading of a byte, an integer in -128 to 127 (R61). -/
def signed8 (b : Byte) : Int := if b.toNat ≤ 127 then (b.toNat : Int) else (b.toNat : Int) - 256

/-- The Relative-mode sum `(PC + signed8(opnd)) mod 256` (R64 to R66). -/
def relativeAddr (pc : Addr) (opnd : Byte) : Addr := BitVec.ofInt 8 ((pc.toNat : Int) + signed8 opnd)

/-- `ResolveAddr(mode, opnd)` (R65): the address STA stores to; Immediate mode has none. -/
def resolveAddr (mode : Mode) (opnd : Byte) (s : State) : Option Addr :=
  match mode with
  | .immediate => none
  | .direct => some opnd
  | .indirect => some (s.memRead opnd)
  | .relative => some (relativeAddr s.pc opnd)

/-- `ResolveValue(mode, opnd)` (R64): the value LDA, ADD, OR and AND take. -/
def resolveValue (mode : Mode) (opnd : Byte) (s : State) : Byte :=
  match mode with
  | .immediate => opnd
  | .direct => s.memRead opnd
  | .indirect => s.memRead (s.memRead opnd)
  | .relative => s.memRead (relativeAddr s.pc opnd)

/-- `ResolveTarget(mode, opnd)` (R66): where the jump family goes. Immediate and Direct are equivalent, and
Indirect is one dereference and not two (the spec's decision D4, log entry 8). -/
def resolveTarget (mode : Mode) (opnd : Byte) (s : State) : Addr :=
  match mode with
  | .immediate => opnd
  | .direct => opnd
  | .indirect => s.memRead opnd
  | .relative => relativeAddr s.pc opnd

end Sys2Proof.Machine
end

