-- ==== Sys2Proof/Machine/Alu.lean ====
section
/-! DEFINITION. The accumulator instructions NOT, ADD, OR and AND (spec/42_alu.md). Every meaning starts in the
state in which the step began, PC being a0. -/

namespace Sys2Proof.Machine

/-- NOT (R105). -/
def execNot (s : State) : Host.Outcome State Fault Refusal :=
  let s1 := s.advance
  .next (s1.loadAC (~~~ s1.ac))

/-- ADD (R106). -/
def execAdd (mode : Mode) (opnd : Byte) (s : State) : Host.Outcome State Fault Refusal :=
  let s2 := s.advance.advance
  let b := resolveValue mode opnd s2
  let a := s2.ac
  .next ((s2.setCV (addCarry a b) (addOverflow a b)).loadAC (addResult a b))

/-- OR (R107). -/
def execOr (mode : Mode) (opnd : Byte) (s : State) : Host.Outcome State Fault Refusal :=
  let s2 := s.advance.advance
  .next (s2.loadAC (s2.ac ||| resolveValue mode opnd s2))

/-- AND (R108). -/
def execAnd (mode : Mode) (opnd : Byte) (s : State) : Host.Outcome State Fault Refusal :=
  let s2 := s.advance.advance
  .next (s2.loadAC (s2.ac &&& resolveValue mode opnd s2))

end Sys2Proof.Machine
end

