-- ==== Sys2Proof/Machine/Control.lean ====
section
/-! DEFINITION. The control-transfer instructions JMP, JC, JN, JZ, JV, JSR and RTS (spec/43_control.md). Every
meaning starts in the state in which the step began, PC being a0. None writes a flag, AC or memory. -/

namespace Sys2Proof.Machine

/-- PC goes to the resolved target; `s2` is the state after the operand byte is consumed (R66, R116). -/
def jumpTo (mode : Mode) (opnd : Byte) (s2 : State) : State := s2.setPC (resolveTarget mode opnd s2)

/-- The common form of the conditional jumps, `f` being the tested flag (R115): taken, it jumps; not taken, it
skips the operand byte. -/
def jumpIf (f : Bool) (mode : Mode) (opnd : Byte) (s : State) : State :=
  if f then jumpTo mode opnd s.advance.advance else s.advance.advance

/-- JMP (R116). -/
def execJmp (mode : Mode) (opnd : Byte) (s : State) : Host.Outcome State Fault Refusal :=
  .next (jumpTo mode opnd s.advance.advance)

/-- JC (R117). -/
def execJc (mode : Mode) (opnd : Byte) (s : State) : Host.Outcome State Fault Refusal :=
  .next (jumpIf s.c mode opnd s)

/-- JN (R118). -/
def execJn (mode : Mode) (opnd : Byte) (s : State) : Host.Outcome State Fault Refusal :=
  .next (jumpIf s.n mode opnd s)

/-- JZ (R119). -/
def execJz (mode : Mode) (opnd : Byte) (s : State) : Host.Outcome State Fault Refusal :=
  .next (jumpIf s.z mode opnd s)

/-- JV (R120). -/
def execJv (mode : Mode) (opnd : Byte) (s : State) : Host.Outcome State Fault Refusal :=
  .next (jumpIf s.v mode opnd s)

/-- JSR (R121): the return address is the address after the operand byte, and RS is a single slot, so that an
earlier return address is lost (R123). -/
def execJsr (mode : Mode) (opnd : Byte) (s : State) : Host.Outcome State Fault Refusal :=
  let s2 := s.advance.advance
  .next (jumpTo mode opnd (s2.setRS s2.pc))

/-- RTS (R122): RS keeps its value. -/
def execRts (s : State) : Host.Outcome State Fault Refusal :=
  .next (s.setPC s.rs)

end Sys2Proof.Machine
end

