-- ==== Sys2Proof/Machine/LoadStore.lean ====
section
/-! DEFINITION. The load and store instructions STA and LDA (spec/41_load_store.md). Every meaning starts in the
state in which the step began, PC being a0. -/

namespace Sys2Proof.Machine

/-- STA (R100). Immediate mode is an execution error and writes nothing (R59, R132). The operand byte was read
before the store, so a STA that overwrites its own bytes completes as fetched (R41, R43). -/
def execSta (mode : Mode) (opnd : Byte) (s : State) : Host.Outcome State Fault Refusal :=
  let s2 := s.advance.advance
  match resolveAddr mode opnd s2 with
  | none => raiseError .invalidAddressingMode s
  | some ea => .next (s2.memWrite ea s2.ac)

/-- LDA (R101). -/
def execLda (mode : Mode) (opnd : Byte) (s : State) : Host.Outcome State Fault Refusal :=
  let s2 := s.advance.advance
  .next (s2.loadAC (resolveValue mode opnd s2))

end Sys2Proof.Machine
end

