-- ==== Sys2Proof/Machine/System.lean ====
section
/-! DEFINITION. The system instruction HLT (spec/44_system.md) and the signal an instruction gives. -/

namespace Sys2Proof.Machine

/-- HLT (R128): it writes no state of its own; PC is where the fetch left it, after the HLT byte. Its halt
signal is an output of the step and not a piece of state (R9, R23): `continues` below gives it. -/
def execHlt (s : State) : Host.Outcome State Fault Refusal :=
  .next s.advance

/-- The run/halt signal of an instruction that completes, `execute -> continue: bool` (R62): false for HLT, true
for every other. -/
def continues : Instr → Bool
  | .hlt => false
  | .not | .rts => true
  | .sta _ _ | .lda _ _ | .add _ _ | .or _ _ | .and _ _ => true
  | .jmp _ _ | .jc _ _ | .jn _ _ | .jz _ _ | .jsr _ _ | .jv _ _ => true

end Sys2Proof.Machine
end

