-- ==== Sys2Proof/Machine/Dispatch.lean ====
section
/-! DEFINITION. The dispatch: one arm per instruction, each one call of its meaning (R62). -/

namespace Sys2Proof.Machine

-- The state is the one in which the step began: PC is the address of the opcode byte.
def exec (i : Instr) (s : State) : Host.Outcome State Fault Refusal :=
  match i with
  | .not => Sys2Proof.Machine.execNot s
  | .sta mode opnd => Sys2Proof.Machine.execSta mode opnd s
  | .lda mode opnd => Sys2Proof.Machine.execLda mode opnd s
  | .add mode opnd => Sys2Proof.Machine.execAdd mode opnd s
  | .or mode opnd => Sys2Proof.Machine.execOr mode opnd s
  | .and mode opnd => Sys2Proof.Machine.execAnd mode opnd s
  | .jmp mode opnd => Sys2Proof.Machine.execJmp mode opnd s
  | .jc mode opnd => Sys2Proof.Machine.execJc mode opnd s
  | .jn mode opnd => Sys2Proof.Machine.execJn mode opnd s
  | .jz mode opnd => Sys2Proof.Machine.execJz mode opnd s
  | .jsr mode opnd => Sys2Proof.Machine.execJsr mode opnd s
  | .rts => Sys2Proof.Machine.execRts s
  | .jv mode opnd => Sys2Proof.Machine.execJv mode opnd s
  | .hlt => Sys2Proof.Machine.execHlt s

end Sys2Proof.Machine
end

