-- ==== Sys2Proof/Machine/Step.lean ====
section
/-! DEFINITION. One step: fetch, decode, execute (R62), and an instruction placed where the step fetches it. -/

namespace Sys2Proof.Machine

/-- `Step(s)` (R62), total on every state, and a function of the state alone (R165). It is the unit of progress: one
fetch and the execution of one instruction, atomic, the same unit for a one-byte and a two-byte instruction, with no
count of time anywhere (R157, R164; log entry 13). An unknown opcode ends the step with an execution error (R58, R131).
Of the spec's three outcomes, Continue and Halt are both a next state here; `fetchStep` in Machine/Run.lean tells
them apart (log entry 3). -/
def step (s : State) : Host.Outcome State Fault Refusal :=
  match fetchInstr s with
  | some i => exec i s
  | none => raiseError .unknownOpcode s

/-- The state with an instruction, its bits numbered as the opcode table numbers them, stored at PC, so that the
next step fetches and runs it. It stands for the load of a program from outside (R45, R152; log entry 12). -/
def State.withFetchWord (s : State) (nbits w : Nat) : State :=
  s.placeBytes (tableBytes nbits w).1 (tableBytes nbits w).2

end Sys2Proof.Machine
end

