-- ==== Sys2Proof/Machine/Access.lean ====
section
/-! DEFINITION. The memory accesses of one step and their order (R43, the spec's decision D12). The state does not
hold them, and reads have no side effect (R35); they say which cells a step looks at and which it writes. -/

namespace Sys2Proof.Machine

/-- One access of one byte (R32, R35). -/
inductive Access where
  /-- `MemRead(a, 1)`. -/
  | read (a : Addr)
  /-- `MemWrite(a, 1, v)`. -/
  | write (a : Addr) (v : Byte)
deriving DecidableEq, Repr

/-- The pointer read of Indirect mode (R43, item 3). -/
def pointerReads (mode : Mode) (opnd : Byte) : List Access :=
  match mode with
  | .indirect => [.read opnd]
  | .immediate | .direct | .relative => []

/-- The opcode and operand reads of a two-byte instruction at `a0` (R43, items 1 and 2). -/
def operandReads (a0 : Addr) : List Access := [.read a0, .read (a0 + 1)]

/-- The reads that follow the operand byte where a value is resolved, `s` being the state after that byte is
consumed (R64, R43, items 3 and 4). -/
def valueReads (mode : Mode) (opnd : Byte) (s : State) : List Access :=
  pointerReads mode opnd ++ (resolveAddr mode opnd s).toList.map .read

/-- The accesses of an instruction that takes a value: LDA, ADD, OR, AND (R43, items 1 to 4). -/
def valueAccesses (mode : Mode) (opnd : Byte) (s : State) : List Access :=
  operandReads s.pc ++ valueReads mode opnd s.advance.advance

/-- The accesses of STA: Immediate mode faults after the opcode read (R43, R136). -/
def storeAccesses (mode : Mode) (opnd : Byte) (s : State) : List Access :=
  match resolveAddr mode opnd s.advance.advance with
  | none => [.read s.pc]
  | some ea => operandReads s.pc ++ pointerReads mode opnd ++ [.write ea s.ac]

/-- The accesses of an unconditional jump, a call or a jump that is taken (R43, items 1 to 3). -/
def jumpAccesses (mode : Mode) (opnd : Byte) (s : State) : List Access :=
  operandReads s.pc ++ pointerReads mode opnd

/-- The accesses of a conditional jump on the flag `f`: not taken, it reads its opcode byte only (R43, R115, the
spec's decision D7). -/
def condAccesses (f : Bool) (mode : Mode) (opnd : Byte) (s : State) : List Access :=
  if f then jumpAccesses mode opnd s else [.read s.pc]

/-- The accesses of an instruction in the step that begins in `s`, in their order (R43). -/
def accesses (i : Instr) (s : State) : List Access :=
  match i with
  | .not | .rts | .hlt => [.read s.pc]
  | .sta m o => storeAccesses m o s
  | .lda m o | .add m o | .or m o | .and m o => valueAccesses m o s
  | .jmp m o | .jsr m o => jumpAccesses m o s
  | .jc m o => condAccesses s.c m o s
  | .jn m o => condAccesses s.n m o s
  | .jz m o => condAccesses s.z m o s
  | .jv m o => condAccesses s.v m o s

/-- The accesses of the step that begins in `s`; an unknown opcode is found by the opcode read (R43, R131). -/
def stepAccesses (s : State) : List Access :=
  match fetchInstr s with
  | some i => accesses i s
  | none => [.read s.pc]

/-- What a list of accesses leaves in memory: reads change nothing (R32, R35). -/
def applyAccesses : List Access → Memory → Memory
  | [], m => m
  | .read _ :: l, m => applyAccesses l m
  | .write a v :: l, m => applyAccesses l (Memory.write m a.toNat v)

end Sys2Proof.Machine
end

