-- ==== Sys2Proof/Machine/Assembler.lean ====
section
/-! DEFINITION. The two-pass assembler (spec/40_assembler.md). It is the toolchain and not the hardware (R3): it is
the only writer of memory before a run (R44, R45) and leaves nothing else in the machine. Source text is a list of
characters. -/

namespace Sys2Proof.Machine

/-! ### Lines and tokens -/

/-- A token, or the text of a label. -/
abbrev Token := List Char

/-- The pieces of a text between the characters that `p` picks. -/
def splitAtChars (p : Char → Bool) : List Char → List (List Char)
  | [] => [[]]
  | ch :: rest =>
    match splitAtChars p rest with
    | [] => [[ch]]
    | piece :: pieces => if p ch then [] :: piece :: pieces else (ch :: piece) :: pieces

/-- White space inside a line: spaces and tabs (R72, the spec's decision D15). -/
def isBlank (ch : Char) : Bool := ch == ' ' || ch == '\t'

/-- A line without its comment, which begins at `;` (R71). -/
def stripComment (line : List Char) : List Char := line.takeWhile (· != ';')

/-- The tokens of a line, split at runs of white space (R72). -/
def tokensOf (line : List Char) : List Token :=
  (splitAtChars isBlank (stripComment line)).filter (fun t => !t.isEmpty)

/-- The source is ASCII text (R71). -/
def isAsciiLine (line : List Char) : Bool := line.all (fun ch => decide (ch.toNat < 128))

/-! ### Literals -/

/-- The value of a decimal digit. -/
def decDigit (ch : Char) : Option Nat :=
  if '0'.toNat ≤ ch.toNat ∧ ch.toNat ≤ '9'.toNat then some (ch.toNat - '0'.toNat) else none

/-- The value of a hexadecimal digit, in either case (R76, the spec's decision D15). -/
def hexDigit (ch : Char) : Option Nat :=
  if 'A'.toNat ≤ ch.toNat ∧ ch.toNat ≤ 'F'.toNat then some (ch.toNat - 'A'.toNat + 10)
  else if 'a'.toNat ≤ ch.toNat ∧ ch.toNat ≤ 'f'.toNat then some (ch.toNat - 'a'.toNat + 10)
  else decDigit ch

/-- The value of a binary digit. -/
def binDigit (ch : Char) : Option Nat :=
  if ch == '0' then some 0 else if ch == '1' then some 1 else none

/-- The number that the digits of `t` stand for after the number `acc`; none at a character that is no digit. -/
def digitsFrom (base : Nat) (digit : Char → Option Nat) (acc : Nat) : List Char → Option Nat
  | [] => some acc
  | ch :: rest =>
    match digit ch with
    | some d => digitsFrom base digit (acc * base + d) rest
    | none => none

/-- One or more digits, read in a base. -/
def digitsValue (base : Nat) (digit : Char → Option Nat) (t : Token) : Option Nat :=
  if t.isEmpty then none else digitsFrom base digit 0 t

/-- A token without its leading `#` (R76). -/
def stripHash : Token → Token
  | '#' :: t => t
  | t => t

/-- Strategy 2 of R76: `0x` and hexadecimal digits. -/
def prefixedHex : Token → Option Nat
  | '0' :: 'x' :: t => digitsValue 16 hexDigit t
  | _ => none

/-- Strategies 4 and 5 of R76: digits before a suffix letter, which is stripped. -/
def suffixed (upper lower : Char) (base : Nat) (digit : Char → Option Nat) (t : Token) : Option Nat :=
  if t.getLast? = some upper ∨ t.getLast? = some lower then digitsValue base digit t.dropLast else none

/-- The numeric strategies of R76 in their order: decimal, `0x`, all hexadecimal digits, `H` suffix, `B` suffix.
A strategy that fails passes the token on to the next. -/
def parseNumber (t : Token) : Option Nat :=
  digitsValue 10 decDigit t <|> prefixedHex t <|> digitsValue 16 hexDigit t <|>
    suffixed 'H' 'h' 16 hexDigit t <|> suffixed 'B' 'b' 2 binDigit t

/-! ### The symbol table -/

/-- Label text, case-sensitive, to an 8-bit address (R75). -/
abbrev SymbolTable := List (Token × Addr)

/-- The address a label stands for. -/
def SymbolTable.find : SymbolTable → Token → Option Addr
  | [], _ => none
  | (l, a) :: rest, t => if l = t then some a else SymbolTable.find rest t

/-- `parseValue(token)` (R76): a numeric literal masked to 8 bits, or else a label looked up. -/
def parseValue (table : SymbolTable) (tok : Token) : Option Byte :=
  match parseNumber (stripHash tok) with
  | some k => some (BitVec.ofNat 8 k)
  | none => SymbolTable.find table (stripHash tok)

/-! ### Operands and mnemonics -/

/-- Whether a token ends with a comma and the letter `ch`. -/
def endsWithSuffix (ch : Char) (t : Token) : Bool := [',', ch].isSuffixOf t

/-- `addressingMode(operandToken)`, the tests in this order (R78). -/
def addressingMode (t : Token) : Mode :=
  if t.head? = some '#' then .immediate
  else if endsWithSuffix 'I' t then .indirect
  else if endsWithSuffix 'R' t then .relative
  else .direct

/-- An operand without its `,I` or `,R` suffix (R90). -/
def stripSuffix (t : Token) : Token :=
  if endsWithSuffix 'I' t || endsWithSuffix 'R' t then t.dropLast.dropLast else t

/-- The mnemonic table of pass 2 (R79, R56). -/
def mnemonicTable : List (Token × BitVec 4) :=
  [("NOT".toList, 0x0), ("STA".toList, 0x1), ("LDA".toList, 0x4), ("ADD".toList, 0x5), ("OR".toList, 0x6),
   ("AND".toList, 0x7), ("JMP".toList, 0x8), ("JC".toList, 0x9), ("JN".toList, 0xA), ("JZ".toList, 0xB),
   ("JSR".toList, 0xC), ("RTS".toList, 0xD), ("JV".toList, 0xE), ("HLT".toList, 0xF)]

/-- The opcode number of a mnemonic (R79). -/
def opcodeOf (name : Token) : Option (BitVec 4) := mnemonicTable.lookup name

/-! ### Statements -/

/-- What a line says after its label (R73). -/
inductive Stmt where
  /-- Nothing: the line holds a label only. -/
  | empty
  /-- `.CODE [#hh]` (R84). -/
  | code (addr : Option Addr)
  /-- `.ENDCODE` (R85). -/
  | endCode
  /-- `.DATA [#hh]` (R84). -/
  | data (addr : Option Addr)
  /-- `.ENDDATA` (R85). -/
  | endData
  /-- `ORG #hh` (R86). -/
  | org (addr : Addr)
  /-- `DB value` (R87). -/
  | db (value : Token)
  /-- Any other token is taken as a mnemonic, with at most one operand token (R88). -/
  | mnemonic (name : Token) (operand : Option Token)
deriving DecidableEq, Repr

/-- The address after a directive: `#` and two or more hexadecimal digits, read in base 16 directly and not
through `parseValue`, at most 0xFF (R80, the spec's decision D21; log entry 18). -/
def directiveAddr : Token → Option Addr
  | '#' :: digits =>
    match digitsValue 16 hexDigit digits with
    | some k => if 2 ≤ digits.length ∧ k < memSize then some (BitVec.ofNat 8 k) else none
    | none => none
  | _ => none

/-- The statement that the tokens after the label stand for; none where the line has none of the forms of R73
(the spec's decision D18; log entry 16). -/
def stmtOf : List Token → Option Stmt
  | [] => some .empty
  | name :: args =>
    if name = ".CODE".toList then
      match args with
      | [] => some (.code none)
      | [a] => (directiveAddr a).map (fun x => .code (some x))
      | _ => none
    else if name = ".DATA".toList then
      match args with
      | [] => some (.data none)
      | [a] => (directiveAddr a).map (fun x => .data (some x))
      | _ => none
    else if name = ".ENDCODE".toList then
      if args.isEmpty then some .endCode else none
    else if name = ".ENDDATA".toList then
      if args.isEmpty then some .endData else none
    else if name = "ORG".toList then
      match args with
      | [a] => (directiveAddr a).map .org
      | _ => none
    else if name = "DB".toList then
      match args with
      | [value] => some (.db value)
      | _ => none
    else
      match args with
      | [] => some (.mnemonic name none)
      | [operand] => some (.mnemonic name (some operand))
      | _ => none

/-- A line that is not skipped. -/
structure Line where
  /-- Its number, from 1 (R71, the spec's decision D18). -/
  number : Nat
  /-- Its label, without the final `:` (R74). -/
  label : Option Token
  /-- What it says; none where its text has none of the admitted forms. -/
  stmt : Option Stmt
deriving DecidableEq, Repr

/-- The label that the first token is, if it ends in `:`, without that character (R74). -/
def labelOf : List Token → Option Token
  | [] => none
  | t :: _ => if t.getLast? = some ':' then some t.dropLast else none

/-- A line as a numbered statement. -/
def lineOf (number : Nat) (text : List Char) : Line :=
  let toks := tokensOf text
  let label := labelOf toks
  let body := if label.isSome then toks.tail else toks
  { number := number, label := label, stmt := if isAsciiLine text then stmtOf body else none }

/-- The lines that are not skipped, with their numbers from `number` on. A line that is blank after its comment
is stripped is skipped by both passes (R71). -/
def linesFrom (number : Nat) : List (List Char) → List Line
  | [] => []
  | text :: rest =>
    if (tokensOf text).isEmpty && isAsciiLine text then linesFrom (number + 1) rest
    else lineOf number text :: linesFrom (number + 1) rest

/-- The lines of a source text (R71, R73). -/
def linesOf (src : List Char) : List Line := linesFrom 1 (splitAtChars (· == '\n') src)

/-! ### Errors -/

/-- The kinds of assembly error (R92), and two of the model's own. -/
inductive AsmKind where
  /-- A section or a statement stands where it may not. -/
  | structural
  /-- A label is defined twice or not at all. -/
  | symbol
  /-- An unknown mnemonic or an unreadable data value. -/
  | encoding
  /-- The address counter would pass 255 and `ASM_ADDR_OVERFLOW` is `fail` (D17; log entry 15). -/
  | addressOverflow
  /-- The text is outside the forms of R73, R71 and R80, and a reader refuses it (R98, U13; log entry 16). -/
  | notAdmitted
deriving DecidableEq, Repr

/-- Why an assembly fails (R92). -/
inductive AsmReason where
  /-- `.ENDCODE` with the code section not open (R85). -/
  | endCodeNotOpen
  /-- `.ENDDATA` with the data section not open (R85). -/
  | endDataNotOpen
  /-- A section is left open at the end of the source (R91). -/
  | sectionLeftOpen
  /-- An instruction or DB outside any open section (R87, R88). -/
  | outsideSection
  /-- A mnemonic inside `.DATA` (R88). -/
  | mnemonicInData
  /-- A label is defined a second time (R74). -/
  | duplicateLabel
  /-- "undefined label", "invalid operand" (R90). -/
  | undefinedLabel
  /-- "invalid instruction" (R90). -/
  | invalidInstruction
  /-- "invalid DB value" (R87). -/
  | invalidDbValue
  /-- The address counter would pass 255 (D17). -/
  | counterPastEnd
  /-- The line has none of the admitted forms (R98, D18). -/
  | lineNotAdmitted
deriving DecidableEq, Repr

/-- The kind of a reason (R92). -/
def AsmReason.kind : AsmReason → AsmKind
  | .endCodeNotOpen | .endDataNotOpen | .sectionLeftOpen | .outsideSection | .mnemonicInData => .structural
  | .duplicateLabel | .undefinedLabel => .symbol
  | .invalidInstruction | .invalidDbValue => .encoding
  | .counterPastEnd => .addressOverflow
  | .lineNotAdmitted => .notAdmitted

/-- A line-tagged failure (R70, R92); there is no line where the end of the source is at fault. -/
structure AsmError where
  /-- The number of the offending line. -/
  line : Option Nat
  /-- What is wrong. -/
  reason : AsmReason
deriving DecidableEq, Repr

/-! ### The address counter and the sections -/

/-- A section of source text (R82). The two are mutually exclusive. -/
inductive Section where
  /-- Between `.CODE` and `.ENDCODE`. -/
  | code
  /-- Between `.DATA` and `.ENDDATA`. -/
  | data
deriving DecidableEq, Repr

/-- The assembler's state while scanning (R82). -/
structure Cursor where
  /-- The current write address. -/
  addr : Addr
  /-- The section that is open. -/
  sect : Option Section
deriving DecidableEq, Repr

/-- Each pass starts with the counter at 0 and no section open (R82). -/
def Cursor.start : Cursor where
  addr := 0
  sect := none

/-- The counter moved by `k` bytes; what happens past 255 is `ASM_ADDR_OVERFLOW` (R82, D17). -/
def Cursor.move (ov : AddrOverflow) (cur : Cursor) (k : Nat) : Except AsmReason Cursor :=
  if ov = .fail ∧ memSize ≤ cur.addr.toNat + k then .error .counterPastEnd
  else .ok { cur with addr := cur.addr + BitVec.ofNat 8 k }

/-- The bytes a mnemonic line takes: one, and one more where it has an operand, whatever the mnemonic (R88,
R96). -/
def mnemonicLength (operand : Option Token) : Nat := if operand.isSome then 2 else 1

/-- The section and address bookkeeping of one statement, the same in both passes (R70, R83 to R89). -/
def track (ov : AddrOverflow) (cur : Cursor) : Stmt → Except AsmReason Cursor
  | .empty => .ok cur
  | .code a => .ok { addr := a.getD cur.addr, sect := some .code }
  | .data a => .ok { addr := a.getD cur.addr, sect := some .data }
  | .endCode => if cur.sect = some .code then .ok { cur with sect := none } else .error .endCodeNotOpen
  | .endData => if cur.sect = some .data then .ok { cur with sect := none } else .error .endDataNotOpen
  | .org a => .ok { cur with addr := a }
  | .db _ => if cur.sect.isSome then cur.move ov 1 else .error .outsideSection
  | .mnemonic _ operand =>
    match cur.sect with
    | none => .error .outsideSection
    | some .data => .error .mnemonicInData
    | some .code => cur.move ov (mnemonicLength operand)

/-! ### Pass 1 -/

/-- The label of a line recorded at the counter (R74, R75). -/
def addLabel (table : SymbolTable) (label : Option Token) (a : Addr) : Except AsmReason SymbolTable :=
  match label with
  | none => .ok table
  | some l => if (SymbolTable.find table l).isSome then .error .duplicateLabel else .ok (table ++ [(l, a)])

/-- Pass 1, label collection (R83): it emits no byte, and after the last line no section may be open (R91). -/
def pass1 (ov : AddrOverflow) : List Line → Cursor → SymbolTable → Except AsmError SymbolTable
  | [], cur, table => if cur.sect.isSome then .error ⟨none, .sectionLeftOpen⟩ else .ok table
  | l :: rest, cur, table =>
    match addLabel table l.label cur.addr, l.stmt with
    | .error r, _ => .error ⟨some l.number, r⟩
    | .ok _, none => .error ⟨some l.number, .lineNotAdmitted⟩
    | .ok table', some st =>
      match track ov cur st with
      | .error r => .error ⟨some l.number, r⟩
      | .ok cur' => pass1 ov rest cur' table'

/-! ### Pass 2 -/

/-- The bytes a statement emits (R87, R90). The operand byte is the resolved value as it stands, in Relative
mode too (R95), and neither the number of operands nor the mode is checked against the mnemonic (R96, R97). -/
def bytesOf (table : SymbolTable) : Stmt → Except AsmReason (List Byte)
  | .db value =>
    match parseValue table value with
    | some b => .ok [b]
    | none => .error .invalidDbValue
  | .mnemonic name operand =>
    match opcodeOf name, operand with
    | none, _ => .error .invalidInstruction
    | some op, none => .ok [encodeFields op .immediate]
    | some op, some tok =>
      match parseValue table (stripSuffix tok) with
      | some b => .ok [encodeFields op (addressingMode tok), b]
      | none => .error .undefinedLabel
  | .empty | .code _ | .endCode | .data _ | .endData | .org _ => .ok []

/-- Bytes stored one after another from the counter's address on (R45, R89). -/
def emitBytes (m : Memory) (a : Addr) : List Byte → Memory
  | [] => m
  | b :: rest => emitBytes (Memory.write m a.toNat b) (a + 1) rest

/-- Pass 2, code generation (R89): the bytes are written in source-line order, so that a later write to an
address replaces an earlier one. -/
def pass2 (ov : AddrOverflow) (table : SymbolTable) : List Line → Cursor → Memory → Except AsmError Memory
  | [], _, m => .ok m
  | l :: rest, cur, m =>
    match l.stmt with
    | none => .error ⟨some l.number, .lineNotAdmitted⟩
    | some st =>
      match bytesOf table st, track ov cur st with
      | .error r, _ => .error ⟨some l.number, r⟩
      | .ok _, .error r => .error ⟨some l.number, r⟩
      | .ok bs, .ok cur' => pass2 ov table rest cur' (emitBytes m cur.addr bs)

/-! ### The assembler -/

/-- The assembler writing over the contents that memory has (R45, R152). A failed assembly gives no memory (R93,
the spec's decision D22). -/
def assembleInto (ov : AddrOverflow) (src : List Char) (m : Memory) : Except AsmError (Memory × SymbolTable) :=
  match pass1 ov (linesOf src) .start [] with
  | .error e => .error e
  | .ok table =>
    match pass2 ov table (linesOf src) .start m with
    | .error e => .error e
    | .ok m' => .ok (m', table)

/-- `assemble(sourceText) -> (Memory, SymbolTable)` or a line-tagged failure (R70), from memory as reset leaves it
(R46, R152). -/
def assemble (ov : AddrOverflow) (src : List Char) : Except AsmError (Memory × SymbolTable) :=
  assembleInto ov src State.reset.mem

end Sys2Proof.Machine
end

