-- ==== Sys2Proof/Machine/Run.lean ====
section
/-! DEFINITION. The step with its three outcomes (R9) and a run (R154). -/

namespace Sys2Proof.Machine

/-- What one call of `fetch()` answers (R9). The outcome is a result of the call, not a piece of state. -/
inductive StepOutcome (σ : Type) where
  /-- The instruction completed: `fetch()` returned true. -/
  | continued (s : σ)
  /-- The instruction was HLT: `fetch()` returned false. -/
  | halted (s : σ)
  /-- An execution error, fatal to the run. -/
  | faulted (f : Fault)
  /-- The model gives the instruction no meaning. No step answers this; it is here because the type of `exec`
  has the case (log entry 24). -/
  | refused (r : Refusal)
deriving DecidableEq, Repr

/-- The same outcome about another view of the state. -/
def StepOutcome.map {σ τ : Type} (g : σ → τ) : StepOutcome σ → StepOutcome τ
  | .continued s => .continued (g s)
  | .halted s => .halted (g s)
  | .faulted f => .faulted f
  | .refused r => .refused r

/-- Whether the step that begins in `s` gives the signal continue, where it completes (R62, R128). -/
def signalsContinue (s : State) : Bool := (fetchInstr s).all continues

/-- `Step : State -> Outcome` (R9, R62): Continue, Halt or Fault. -/
def fetchStep (s : State) : StepOutcome State :=
  match step s with
  | .next t => if signalsContinue s then .continued t else .halted t
  | .fault f => .faulted f
  | .refused r => .refused r

/-- How a run ends (R154). -/
inductive RunResult where
  /-- The bound on the number of steps is reached, in this state. -/
  | outOfFuel (s : State)
  /-- HLT ended the run, and left this state. -/
  | halted (s : State)
  /-- An execution error ended the run. -/
  | faulted (f : Fault)
  /-- The model gave an instruction no meaning; no run answers this (log entry 24). -/
  | refused (r : Refusal)
deriving DecidableEq, Repr

/-- `Run(s0, FUEL)` for a natural number FUEL, the caller's bound (R154, D14). The
bound counts steps, that is instructions, and nothing else is counted (R161, R164; log entry 13). FUEL without a bound is
`Machine.Halts` and `Machine.FaultsWith` of Sys2Proof/Safety.lean (log entry 21). -/
def run : Nat → State → RunResult
  | 0, s => .outOfFuel s
  | fuel + 1, s =>
    match fetchStep s with
    | .continued t => run fuel t
    | .halted t => .halted t
    | .faulted f => .faulted f
    | .refused r => .refused r

end Sys2Proof.Machine
end

