-- ==== Sys2Proof/Machine/Boot.lean ====
section
/-! DEFINITION. A machine instance and the calls the host makes on it: reset, assemble, fetch and the read-only
accessors (R26, R150 to R156). -/

namespace Sys2Proof.Machine

/-- A machine instance as its host holds it: the architectural state, and the symbol table of the toolchain side,
which no instruction reads (R23, R144). Instances share nothing. -/
structure Instance where
  /-- The architectural state (R10). -/
  state : State
  /-- The symbol table of the last assembly (R75). -/
  symbols : SymbolTable
deriving DecidableEq, Repr

/-- Create or reset (R150): the reset state, and an empty symbol table. -/
def Instance.reset : Instance where
  state := State.reset
  symbols := []

/-- `assemble(sourceText)` on an instance (R45, R152): it writes the image over memory, replaces the symbol table
and touches no register and no flag. After a failure there is no instance to go on with but a reset one (R93). -/
def Instance.load (ov : AddrOverflow) (src : List Char) (m : Instance) : Except AsmError Instance :=
  match assembleInto ov src m.state.mem with
  | .error e => .error e
  | .ok (mem, symbols) => .ok { state := { m.state with mem := mem }, symbols := symbols }

/-- `fetch()` on an instance (R62, R155): one step. -/
def Instance.fetch (m : Instance) : StepOutcome Instance :=
  (fetchStep m.state).map (fun s => { m with state := s })

/-- Boot (R152): reset, then assemble. -/
def boot (ov : AddrOverflow) (src : List Char) : Except AsmError Instance :=
  Instance.load ov src Instance.reset

/-- Boot, then call `fetch()` until it signals stop or the bound is reached (R152, R154). -/
def bootAndRun (ov : AddrOverflow) (src : List Char) (fuel : Nat) : Except AsmError RunResult :=
  match boot ov src with
  | .error e => .error e
  | .ok m => .ok (run fuel m.state)

/-! ### The read-only accessors (R26, R155) -/

/-- All 256 cells, from address 0 up. -/
def Instance.readMemory (m : Instance) : List Byte :=
  (List.range memSize).map (Memory.read m.state.mem)

/-- The register set: AC, PC, RS. -/
def Instance.readRegisters (m : Instance) : Byte × Addr × Addr := (m.state.ac, m.state.pc, m.state.rs)

/-- The four flags: C, V, N, Z. -/
def Instance.readFlags (m : Instance) : Bool × Bool × Bool × Bool :=
  (m.state.c, m.state.v, m.state.n, m.state.z)

/-- The symbol table. -/
def Instance.readSymbols (m : Instance) : SymbolTable := m.symbols

end Sys2Proof.Machine
end

