-- ==== Sys2Proof/WellFormed.lean ====
section
/-! DEFINITION. Which instructions are well formed: the legal (opcode, mode) pairs of R56. -/

namespace Sys2Proof

/-- STA with Immediate mode is the one (opcode, mode) pair that names no instruction although its opcode is
assigned (R59); every other constructor admits every mode and every operand byte (R56, R67). -/
def Instr.wellFormed : Instr → Bool
  | .sta mode _ => mode != .immediate
  | .not | .rts | .hlt => true
  | .lda _ _ | .add _ _ | .or _ _ | .and _ _ => true
  | .jmp _ _ | .jc _ _ | .jn _ _ | .jz _ _ | .jsr _ _ | .jv _ _ => true

end Sys2Proof
end

