-- ==== Sys2Proof/Safety.lean ====
section
/-! DEFINITION. What counts as a safe run, and the terms that claims about steps and runs use. -/

namespace Sys2Proof.Machine

/-- A run from `s` with FUEL infinite returns Halted in state `t` (R154, D14). -/
def Halts (s t : State) : Prop := ∃ fuel, run fuel s = .halted t

/-- A run from `s` with FUEL infinite returns Faulted (R154, D14). -/
def FaultsWith (s : State) (f : Fault) : Prop := ∃ fuel, run fuel s = .faulted f

/-- A safe run: whatever the bound, it does not end in an execution error. -/
def SafeRun (s : State) : Prop := ∀ f, ¬ FaultsWith s f

/-- `Trace s l t`: a sequence of completed steps leads from `s` to `t`, and `l` lists the address and the
instruction of each, the first one first. -/
inductive Trace : State → List (Addr × Instr) → State → Prop
  | nil (s : State) : Trace s [] s
  | cons {s t u : State} {i : Instr} {l : List (Addr × Instr)} :
      fetchInstr s = some i → step s = .next t → Trace t l u → Trace s ((s.pc, i) :: l) u

/-- Whether an instruction is a JSR, the one writer of RS (R14). -/
def isJsr : Instr → Bool
  | .jsr _ _ => true
  | .not | .rts | .hlt => false
  | .sta _ _ | .lda _ _ | .add _ _ | .or _ _ | .and _ _ => false
  | .jmp _ _ | .jc _ _ | .jn _ _ | .jz _ _ | .jv _ _ => false

/-- Whether an instruction is an ADD, the one writer of C and V (R16, R17). -/
def isAdd : Instr → Bool
  | .add _ _ => true
  | .not | .rts | .hlt => false
  | .sta _ _ | .lda _ _ | .or _ _ | .and _ _ => false
  | .jmp _ _ | .jc _ _ | .jn _ _ | .jz _ _ | .jsr _ _ | .jv _ _ => false

/-- Whether an instruction writes AC, and with it N and Z: NOT, LDA, ADD, OR, AND (R11, R18). -/
def writesAC : Instr → Bool
  | .not => true
  | .lda _ _ | .add _ _ | .or _ _ | .and _ _ => true
  | .sta _ _ | .rts | .hlt => false
  | .jmp _ _ | .jc _ _ | .jn _ _ | .jz _ _ | .jsr _ _ | .jv _ _ => false

/-- The address that an instruction stores to in the step that begins in `s`: STA's resolved address, and none
for every other instruction (R44, R65). -/
def storeAddr (i : Instr) (s : State) : Option Addr :=
  match i with
  | .sta m o => resolveAddr m o s.advance.advance
  | .not | .rts | .hlt => none
  | .lda _ _ | .add _ _ | .or _ _ | .and _ _ => none
  | .jmp _ _ | .jc _ _ | .jn _ _ | .jz _ _ | .jsr _ _ | .jv _ _ => none

/-- N and Z describe AC: `N = AC[7]` and `Z = (AC == 0)` (R166). Reset does not meet it, for Z (R25). -/
def FlagsDescribeAC (s : State) : Prop := s.n = s.ac.getLsbD 7 ∧ s.z = (s.ac == 0)

/-- The address after the last JSR of a list of steps, two bytes on; `rs0` where there is none (R166). -/
def lastReturnAddr (rs0 : Addr) : List (Addr × Instr) → Addr
  | [] => rs0
  | (a, i) :: l => lastReturnAddr (if isJsr i then a + 2 else rs0) l

end Sys2Proof.Machine
end

