-- ==== Sys2Proof/Certificates/Slice0/Obligations.lean ====
section
/-! DEFINITION. The statements for the provers. Each docstring names the rule of spec/ that the statement follows;
where a statement rests on a decision of the spec's own (D<n>) or on an inference the spec marks as its own, the
docstring says so and names the log entry. In the statements about `exec`, `s` is the state in which the step
began, so that `s.pc` is a0, the address of the opcode byte. -/

open Sys2Proof Sys2Proof.Machine

/-! ### Encoding -/

/-- R53: `opcode = b[7:4]` and `mode = b[3:2]`, for every byte. -/
def Obligations.DecodeReadsOpcodeAndMode : Prop :=
  ∀ b : Byte, (decodeFields b).1.toNat = b.toNat / 16 ∧ (decodeFields b).2.toBits.toNat = b.toNat / 4 % 4

/-- 30_encoding.md section 7 (an inference of the spec): `Decode(Encode(opcode, mode)) = (opcode, mode)`, and
`Encode` is `(opcode << 4) | (mode << 2)`, so that bits 1:0 are zero. -/
def Obligations.FieldsEncodeThenDecode : Prop :=
  ∀ (op : BitVec 4) (m : Mode),
    decodeFields (encodeFields op m) = (op, m) ∧
      (encodeFields op m).toNat = op.toNat * 16 + m.toBits.toNat * 4

/-- For every instruction with every mode and every operand byte (STA with Immediate mode too), and whatever
bytes follow, the decoder reads from its encoding that instruction and leaves what follows (30_encoding.md
sections 1 and 2). -/
def Obligations.DecodeOfEncodeIsTheInstruction : Prop :=
  ∀ (i : Instr) (rest : List Byte), decode (encode i ++ rest) = .ok (i, rest)

/-- The decoder drops nothing that an instruction uses (30_encoding.md sections 1 to 4). What it read, encoded
again, differs from the bytes it was given at most in the opcode byte, and there only in what is ignored: bits
1:0, which come out as 0 (log entry 6), and the mode of a one-byte instruction (log entry 7). -/
def Obligations.EncodeOfDecodeDiffersOnlyInIgnoredBits : Prop :=
  ∀ (bytes rest : List Byte) (i : Instr), decode bytes = .ok (i, rest) →
    ∃ (b b' : Byte) (tl : List Byte), bytes = b :: tl ∧ encode i ++ rest = b' :: tl ∧
      b'.toNat / 16 = b.toNat / 16 ∧ b'.toNat % 4 = 0 ∧
      (i.size = 2 → b'.toNat / 4 = b.toNat / 4)

/-- Bytes that the opcode map and the examples of 30_encoding.md, 41_load_store.md, 42_alu.md, 43_control.md and
44_system.md spell out decode to the instruction they stand for; 0x20 and 0x3F to none. -/
def Obligations.SampleWordsDecode : Prop :=
  decodeBytes 0x00 0x77 = some .not ∧
  decodeBytes 0x14 0x0C = some (.sta .direct 0x0C) ∧
  decodeBytes 0x4C 0xFE = some (.lda .relative 0xFE) ∧
  decodeBytes 0x54 0x0A = some (.add .direct 0x0A) ∧
  decodeBytes 0x60 0xF0 = some (.or .immediate 0xF0) ∧
  decodeBytes 0x78 0x40 = some (.and .indirect 0x40) ∧
  decodeBytes 0x8C 0xF0 = some (.jmp .relative 0xF0) ∧
  decodeBytes 0x94 0x20 = some (.jc .direct 0x20) ∧
  decodeBytes 0xAC 0x02 = some (.jn .relative 0x02) ∧
  decodeBytes 0xB8 0x20 = some (.jz .indirect 0x20) ∧
  decodeBytes 0xC4 0x10 = some (.jsr .direct 0x10) ∧
  decodeBytes 0xD0 0x00 = some .rts ∧
  decodeBytes 0xE4 0x20 = some (.jv .direct 0x20) ∧
  decodeBytes 0xF0 0x00 = some .hlt ∧
  decodeBytes 0x20 0x00 = none ∧ decodeBytes 0x3F 0x00 = none

/-- 30_encoding.md section 6a (an inference of the spec; that bits 1:0 and the mode of NOT and HLT are ignored,
and that STA with Immediate mode is the only invalid pair, are its decisions D2 and D3, log entries 6 and 7): of
the 256 opcode bytes, 0x20 to 0x3F name no instruction, 0x10 to 0x13 are STA with Immediate mode, the one
instruction that is not well formed, and each of the 220 others decodes to a well-formed instruction, whatever the
operand byte. -/
def Obligations.OpcodeByteClassification : Prop :=
  (∀ b o : Byte, decodeBytes b o = none ↔ (0x20 ≤ b.toNat ∧ b.toNat ≤ 0x3F)) ∧
  (∀ b o : Byte, decodeBytes b o = some (.sta .immediate o) ↔ (0x10 ≤ b.toNat ∧ b.toNat ≤ 0x13)) ∧
  (∀ b o : Byte, (∃ i, decodeBytes b o = some i ∧ i.wellFormed = true) ↔
    (b.toNat ≤ 0x0F ∨ (0x14 ≤ b.toNat ∧ b.toNat ≤ 0x1F) ∨ 0x40 ≤ b.toNat)) ∧
  (List.range 256).countP
    (fun k => (decodeBytes (BitVec.ofNat 8 k) 0).any Instr.wellFormed) = 220

/-- Two opcode bytes that differ only in bits 1:0 decode alike (the spec's decision D2, log entry 6), and an
opcode byte of NOT, RTS or HLT decodes alike whatever its mode and whatever byte follows (the spec's decision D3,
log entry 7). -/
def Obligations.IgnoredBitsDoNotMatter : Prop :=
  (∀ b b' o : Byte, b.toNat / 4 = b'.toNat / 4 → decodeBytes b o = decodeBytes b' o) ∧
  (∀ b b' o o' : Byte, b.toNat / 16 = b'.toNat / 16 → b.toNat / 16 ∈ [0x0, 0xD, 0xF] →
    decodeBytes b o = decodeBytes b' o')

/-- 30_encoding.md section 3: the length is a function of the opcode field alone: 1 byte for opcodes 0x0, 0xD and
0xF, none for 0x2 and 0x3, which fault, and 2 bytes for all others, in every mode; the decoder takes that many
bytes. -/
def Obligations.LengthIsFixedByOpcode : Prop :=
  (∀ (b o : Byte) (rest : List Byte), b.toNat / 16 ∈ [0x2, 0x3] →
    lengthOfOpcode (opcodeField b) = none ∧ decode (b :: o :: rest) = .error .unknownOpcode) ∧
  (∀ (b o : Byte) (rest : List Byte), b.toNat / 16 ∈ [0x0, 0xD, 0xF] →
    lengthOfOpcode (opcodeField b) = some 1 ∧ ∃ i, decode (b :: o :: rest) = .ok (i, o :: rest) ∧ i.size = 1) ∧
  (∀ (b o : Byte) (rest : List Byte), b.toNat / 16 ∉ [0x0, 0x2, 0x3, 0xD, 0xF] →
    lengthOfOpcode (opcodeField b) = some 2 ∧ ∃ i, decode (b :: o :: rest) = .ok (i, rest) ∧ i.size = 2)

/-! ### The step -/

/-- 30_encoding.md section 5: when the bytes at PC (the second one at (PC + 1) mod 256) decode to an instruction,
the step is that instruction executed in that state, and nothing else happens around it. -/
def Obligations.StepRunsTheDecodedInstruction : Prop :=
  ∀ (s : State) (i : Instr) (rest : List Byte),
    decode [s.memRead s.pc, s.memRead (s.pc + 1)] = .ok (i, rest) → step s = exec i s

/-- 60_exceptions.md section 1: a step ends with `UnknownOpcode(a)` exactly when the opcode byte is 0x20 to 0x3F,
and then `a` is the address of that byte (the name and what it carries are the spec's decision D6, log entry
4). -/
def Obligations.UnknownOpcodeFaultsExactly : Prop :=
  ∀ (s : State) (a : Addr), step s = .fault (.unknownOpcode a) ↔
    (a = s.pc ∧ 0x20 ≤ (s.memRead s.pc).toNat ∧ (s.memRead s.pc).toNat ≤ 0x3F)

/-- 60_exceptions.md section 1: a step ends with `InvalidAddressingMode(a)` exactly when the opcode byte is 0x10
to 0x13, and then `a` is the address of that byte; the instruction that raises it is STA with Immediate mode, and
no other (the spec's decisions D3 and D6, log entries 4 and 7). -/
def Obligations.InvalidAddressingModeFaultsExactly : Prop :=
  (∀ (s : State) (a : Addr), step s = .fault (.invalidAddressingMode a) ↔
    (a = s.pc ∧ 0x10 ≤ (s.memRead s.pc).toNat ∧ (s.memRead s.pc).toNat ≤ 0x13)) ∧
  (∀ (i : Instr) (s : State) (f : Fault), exec i s = .fault f ↔
    ((∃ o, i = .sta .immediate o) ∧ f = .invalidAddressingMode s.pc))

/-- 60_exceptions.md section 4 (an inference of the spec; that no other opcode byte faults rests on its decisions D2 and
D3, log entries 6 and 7): apart from the 36 opcode bytes that fault, every step
completes: no address, no value of a register or flag and no arithmetic result is an error. -/
def Obligations.EveryOtherOpcodeByteCompletes : Prop :=
  ∀ s : State,
    ((s.memRead s.pc).toNat ≤ 0x0F ∨ (0x14 ≤ (s.memRead s.pc).toNat ∧ (s.memRead s.pc).toNat ≤ 0x1F) ∨
      0x40 ≤ (s.memRead s.pc).toNat) →
    ∃ t, step s = .next t

/-- No instruction and no step is without a meaning (30_encoding.md section 5: `Step` is defined on every
state). -/
def Obligations.NothingIsRefused : Prop :=
  (∀ (i : Instr) (s : State) (r : Refusal), exec i s ≠ .refused r) ∧
  (∀ (s : State) (r : Refusal), step s ≠ .refused r ∧ fetchStep s ≠ .refused r)

/-- 10_state.md section 3 (an inference of the spec; the Indirect target is its decision D4, log entry 8, and that
PC after HLT is one byte on in an ordinary next state is its decision D5, log entry 3): the value of PC after a
step, for every instruction; all sums wrap. -/
def Obligations.PcAfterAStep : Prop :=
  ∀ (s t : State) (i : Instr), fetchInstr s = some i → step s = .next t →
    t.pc = match i with
      | .not | .hlt => s.pc + 1
      | .sta _ _ | .lda _ _ | .add _ _ | .or _ _ | .and _ _ => s.pc + 2
      | .jmp m o | .jsr m o => resolveTarget m o { s with pc := s.pc + 2 }
      | .jc m o => if s.c then resolveTarget m o { s with pc := s.pc + 2 } else s.pc + 2
      | .jn m o => if s.n then resolveTarget m o { s with pc := s.pc + 2 } else s.pc + 2
      | .jz m o => if s.z then resolveTarget m o { s with pc := s.pc + 2 } else s.pc + 2
      | .jv m o => if s.v then resolveTarget m o { s with pc := s.pc + 2 } else s.pc + 2
      | .rts => s.rs

/-- 44_system.md (that the signal is no state is the spec's decision D5, log entry 3, and that the bytes 0xF4 to
0xFF, whose mode is not 0, halt too is its decision D3, log entry 7): a step gives the halt signal exactly when the
opcode byte is 0xF0 to 0xFF, and the state it leaves is the one before with PC one byte
on. -/
def Obligations.HaltSignalExactlyAtHlt : Prop :=
  ∀ s t : State, fetchStep s = .halted t ↔
    (0xF0 ≤ (s.memRead s.pc).toNat ∧ t = { s with pc := s.pc + 1 })

/-! ### The instructions: result, completion and frame

Each of these gives the whole next state, so that whatever it does not name is unchanged, and says which opcode
bytes are the instruction, which bytes are emitted for each of its forms, under which mnemonic the assembler knows
it, and that its step signals continue (HLT: halt). That bits 1:0 of the opcode byte are ignored is the spec's
decision D2 (log entry 6). -/

/-- 42_alu.md, NOT (that its mode is ignored is the spec's decision D3, log entry 7). -/
def Obligations.NotComplementsAC : Prop :=
  (∀ b o : Byte, b.toNat / 16 = 0x0 → decodeBytes b o = some .not) ∧ encode .not = [0x00] ∧
  opcodeOf "NOT".toList = some 0x0 ∧ continues .not = true ∧
  (∀ s : State, exec .not s = .next { s with
    pc := s.pc + 1, ac := BitVec.ofNat 8 (255 - s.ac.toNat),
    n := decide (128 ≤ 255 - s.ac.toNat), z := 255 - s.ac.toNat == 0 })

/-- 41_load_store.md, STA (that Indirect is one dereference is the spec's decision D4, log entry 8; how
Immediate mode is reported is its decision D6, log entry 4). In every mode but Immediate
it completes: the cell at the resolved address reads as AC afterwards, every other cell reads as before, PC is two
bytes on, and nothing else changes. Immediate mode stops with `InvalidAddressingMode`. -/
def Obligations.StaStoresAC : Prop :=
  (∀ b o : Byte, b.toNat / 16 = 0x1 → decodeBytes b o = some (.sta (modeField b) o)) ∧
  (∀ o : Byte,
    encode (.sta .direct o) = [0x14, o] ∧ encode (.sta .indirect o) = [0x18, o] ∧
    encode (.sta .relative o) = [0x1C, o]) ∧
  opcodeOf "STA".toList = some 0x1 ∧ (∀ (m : Mode) (o : Byte), continues (.sta m o) = true) ∧
  (∀ (s : State) (m : Mode) (o : Byte), m ≠ .immediate →
    ∃ (ea : Addr) (t : State), resolveAddr m o { s with pc := s.pc + 2 } = some ea ∧
      exec (.sta m o) s = .next t ∧ t = { s with pc := s.pc + 2, mem := t.mem } ∧
      t.memRead ea = s.ac ∧ ∀ a : Addr, a ≠ ea → t.memRead a = s.memRead a) ∧
  (∀ (s : State) (o : Byte), exec (.sta .immediate o) s = .fault (.invalidAddressingMode s.pc))

/-- R101: LDA in all four modes. -/
def Obligations.LdaLoadsTheValue : Prop :=
  (∀ b o : Byte, b.toNat / 16 = 0x4 → decodeBytes b o = some (.lda (modeField b) o)) ∧
  (∀ o : Byte,
    encode (.lda .immediate o) = [0x40, o] ∧ encode (.lda .direct o) = [0x44, o] ∧
    encode (.lda .indirect o) = [0x48, o] ∧ encode (.lda .relative o) = [0x4C, o]) ∧
  opcodeOf "LDA".toList = some 0x4 ∧ (∀ (m : Mode) (o : Byte), continues (.lda m o) = true) ∧
  (∀ (s : State) (m : Mode) (o v : Byte), resolveValue m o { s with pc := s.pc + 2 } = v →
    exec (.lda m o) s = .next { s with
      pc := s.pc + 2, ac := v, n := decide (128 ≤ v.toNat), z := v == 0 })

/-- 42_alu.md, ADD in all four modes (that C and V are cleared as well as set is the spec's decision D11, log
entry 9). -/
def Obligations.AddAddsTheValue : Prop :=
  (∀ b o : Byte, b.toNat / 16 = 0x5 → decodeBytes b o = some (.add (modeField b) o)) ∧
  (∀ o : Byte,
    encode (.add .immediate o) = [0x50, o] ∧ encode (.add .direct o) = [0x54, o] ∧
    encode (.add .indirect o) = [0x58, o] ∧ encode (.add .relative o) = [0x5C, o]) ∧
  opcodeOf "ADD".toList = some 0x5 ∧ (∀ (m : Mode) (o : Byte), continues (.add m o) = true) ∧
  (∀ (s : State) (m : Mode) (o v r : Byte), resolveValue m o { s with pc := s.pc + 2 } = v →
    r = BitVec.ofNat 8 ((s.ac.toNat + v.toNat) % 256) →
    exec (.add m o) s = .next { s with
      pc := s.pc + 2, ac := r, c := decide (255 < s.ac.toNat + v.toNat),
      v := decide ((128 ≤ s.ac.toNat ↔ 128 ≤ v.toNat) ∧ ¬ (128 ≤ r.toNat ↔ 128 ≤ s.ac.toNat)),
      n := decide (128 ≤ r.toNat), z := r == 0 })

/-- R107: OR in all four modes. -/
def Obligations.OrOrsTheValue : Prop :=
  (∀ b o : Byte, b.toNat / 16 = 0x6 → decodeBytes b o = some (.or (modeField b) o)) ∧
  (∀ o : Byte,
    encode (.or .immediate o) = [0x60, o] ∧ encode (.or .direct o) = [0x64, o] ∧
    encode (.or .indirect o) = [0x68, o] ∧ encode (.or .relative o) = [0x6C, o]) ∧
  opcodeOf "OR".toList = some 0x6 ∧ (∀ (m : Mode) (o : Byte), continues (.or m o) = true) ∧
  (∀ (s : State) (m : Mode) (o v r : Byte), resolveValue m o { s with pc := s.pc + 2 } = v → r = s.ac ||| v →
    exec (.or m o) s = .next { s with
      pc := s.pc + 2, ac := r, n := decide (128 ≤ r.toNat), z := r == 0 })

/-- R108: AND in all four modes. -/
def Obligations.AndAndsTheValue : Prop :=
  (∀ b o : Byte, b.toNat / 16 = 0x7 → decodeBytes b o = some (.and (modeField b) o)) ∧
  (∀ o : Byte,
    encode (.and .immediate o) = [0x70, o] ∧ encode (.and .direct o) = [0x74, o] ∧
    encode (.and .indirect o) = [0x78, o] ∧ encode (.and .relative o) = [0x7C, o]) ∧
  opcodeOf "AND".toList = some 0x7 ∧ (∀ (m : Mode) (o : Byte), continues (.and m o) = true) ∧
  (∀ (s : State) (m : Mode) (o v r : Byte), resolveValue m o { s with pc := s.pc + 2 } = v → r = s.ac &&& v →
    exec (.and m o) s = .next { s with
      pc := s.pc + 2, ac := r, n := decide (128 ≤ r.toNat), z := r == 0 })

/-- 43_control.md, JMP (the Indirect target is the spec's decision D4, log entry 8). -/
def Obligations.JmpGoesToTheTarget : Prop :=
  (∀ b o : Byte, b.toNat / 16 = 0x8 → decodeBytes b o = some (.jmp (modeField b) o)) ∧
  (∀ o : Byte,
    encode (.jmp .immediate o) = [0x80, o] ∧ encode (.jmp .direct o) = [0x84, o] ∧
    encode (.jmp .indirect o) = [0x88, o] ∧ encode (.jmp .relative o) = [0x8C, o]) ∧
  opcodeOf "JMP".toList = some 0x8 ∧ (∀ (m : Mode) (o : Byte), continues (.jmp m o) = true) ∧
  (∀ (s : State) (m : Mode) (o : Byte),
    exec (.jmp m o) s = .next { s with pc := resolveTarget m o { s with pc := s.pc + 2 } })

/-- 43_control.md, the common form of JC, JN, JZ and JV, each with its own flag: with the flag equal to 1 the
jump is taken, with the flag equal to 0 it is a two-byte no-op; nothing but PC changes (the Indirect target is the
spec's decision D4, log entry 8). -/
def Obligations.ConditionalJumpsTestTheirFlag : Prop :=
  (∀ b o : Byte, (b.toNat / 16 = 0x9 → decodeBytes b o = some (.jc (modeField b) o)) ∧
    (b.toNat / 16 = 0xA → decodeBytes b o = some (.jn (modeField b) o)) ∧
    (b.toNat / 16 = 0xB → decodeBytes b o = some (.jz (modeField b) o)) ∧
    (b.toNat / 16 = 0xE → decodeBytes b o = some (.jv (modeField b) o))) ∧
  (∀ o : Byte,
    encode (.jc .immediate o) = [0x90, o] ∧ encode (.jc .direct o) = [0x94, o] ∧
    encode (.jc .indirect o) = [0x98, o] ∧ encode (.jc .relative o) = [0x9C, o] ∧
    encode (.jn .immediate o) = [0xA0, o] ∧ encode (.jn .direct o) = [0xA4, o] ∧
    encode (.jn .indirect o) = [0xA8, o] ∧ encode (.jn .relative o) = [0xAC, o] ∧
    encode (.jz .immediate o) = [0xB0, o] ∧ encode (.jz .direct o) = [0xB4, o] ∧
    encode (.jz .indirect o) = [0xB8, o] ∧ encode (.jz .relative o) = [0xBC, o] ∧
    encode (.jv .immediate o) = [0xE0, o] ∧ encode (.jv .direct o) = [0xE4, o] ∧
    encode (.jv .indirect o) = [0xE8, o] ∧ encode (.jv .relative o) = [0xEC, o]) ∧
  opcodeOf "JC".toList = some 0x9 ∧ opcodeOf "JN".toList = some 0xA ∧ opcodeOf "JZ".toList = some 0xB ∧
  opcodeOf "JV".toList = some 0xE ∧
  (∀ (m : Mode) (o : Byte), continues (.jc m o) = true ∧ continues (.jn m o) = true ∧
    continues (.jz m o) = true ∧ continues (.jv m o) = true) ∧
  (∀ (s : State) (m : Mode) (o : Byte),
    (s.c = true → exec (.jc m o) s = .next { s with pc := resolveTarget m o { s with pc := s.pc + 2 } }) ∧
    (s.c = false → exec (.jc m o) s = .next { s with pc := s.pc + 2 }) ∧
    (s.n = true → exec (.jn m o) s = .next { s with pc := resolveTarget m o { s with pc := s.pc + 2 } }) ∧
    (s.n = false → exec (.jn m o) s = .next { s with pc := s.pc + 2 }) ∧
    (s.z = true → exec (.jz m o) s = .next { s with pc := resolveTarget m o { s with pc := s.pc + 2 } }) ∧
    (s.z = false → exec (.jz m o) s = .next { s with pc := s.pc + 2 }) ∧
    (s.v = true → exec (.jv m o) s = .next { s with pc := resolveTarget m o { s with pc := s.pc + 2 } }) ∧
    (s.v = false → exec (.jv m o) s = .next { s with pc := s.pc + 2 }))

/-- 43_control.md, JSR (the Indirect target is the spec's decision D4, log entry 8): RS takes the address after
the operand byte, whatever it held. -/
def Obligations.JsrSavesTheReturnAddress : Prop :=
  (∀ b o : Byte, b.toNat / 16 = 0xC → decodeBytes b o = some (.jsr (modeField b) o)) ∧
  (∀ o : Byte,
    encode (.jsr .immediate o) = [0xC0, o] ∧ encode (.jsr .direct o) = [0xC4, o] ∧
    encode (.jsr .indirect o) = [0xC8, o] ∧ encode (.jsr .relative o) = [0xCC, o]) ∧
  opcodeOf "JSR".toList = some 0xC ∧ (∀ (m : Mode) (o : Byte), continues (.jsr m o) = true) ∧
  (∀ (s : State) (m : Mode) (o : Byte),
    exec (.jsr m o) s = .next { s with
      rs := s.pc + 2, pc := resolveTarget m o { s with pc := s.pc + 2 } })

/-- R122: RTS goes to RS, keeps RS, and ignores the mode. -/
def Obligations.RtsReturnsToRS : Prop :=
  (∀ b o : Byte, b.toNat / 16 = 0xD → decodeBytes b o = some .rts) ∧ encode .rts = [0xD0] ∧
  opcodeOf "RTS".toList = some 0xD ∧ continues .rts = true ∧
  (∀ s : State, exec .rts s = .next { s with pc := s.rs })

/-- 44_system.md, HLT (that its mode is ignored is the spec's decision D3, log entry 7, and that it leaves no
latch its decision D5, log entry 3): the state changes in PC alone, and the step's signal is halt. -/
def Obligations.HltHalts : Prop :=
  (∀ b o : Byte, b.toNat / 16 = 0xF → decodeBytes b o = some .hlt) ∧ encode .hlt = [0xF0] ∧
  opcodeOf "HLT".toList = some 0xF ∧
  (∀ s : State, exec .hlt s = .next { s with pc := s.pc + 1 }) ∧
  (∀ i : Instr, continues i = false ↔ i = .hlt)

/-! ### The shared operations -/

/-- R61: `signed8(b)` is `b` up to 127 and `b - 256` from 128 on, in -128 to 127, and it is the two's-complement
reading. -/
def Obligations.SignedReadingOfAByte : Prop :=
  ∀ b : Byte, (b.toNat ≤ 127 → signed8 b = b.toNat) ∧ (128 ≤ b.toNat → signed8 b = (b.toNat : Int) - 256) ∧
    -128 ≤ signed8 b ∧ signed8 b ≤ 127 ∧ signed8 b = b.toInt

/-- R64: the value of each mode, and the cells read for it after the operand byte; Relative mode reads at
(PC + signed8(opnd)) mod 256, PC being past the operand byte, and the sum wraps at the end of memory. -/
def Obligations.ValueOfEachMode : Prop :=
  ∀ (s : State) (o : Byte),
    resolveValue .immediate o s = o ∧
    resolveValue .direct o s = s.memRead o ∧
    resolveValue .indirect o s = s.memRead (s.memRead o) ∧
    valueReads .immediate o s = [] ∧ valueReads .direct o s = [.read o] ∧
    valueReads .indirect o s = [.read o, .read (s.memRead o)] ∧
    ∀ a : Addr, (a.toNat : Int) = ((s.pc.toNat : Int) + signed8 o) % 256 →
      resolveValue .relative o s = s.memRead a ∧ valueReads .relative o s = [.read a]

/-- 30_encoding.md section 6 (the Indirect target is the spec's decision D4, log entry 8; that the three
resolutions agree is an inference of the spec): the address of a store and the target of a jump in each mode, and
a load reads where a store in the same mode writes. -/
def Obligations.AddressAndTargetOfEachMode : Prop :=
  ∀ (s : State) (o : Byte),
    resolveAddr .immediate o s = none ∧ resolveTarget .immediate o s = o ∧
    resolveAddr .direct o s = some o ∧ resolveTarget .direct o s = o ∧
    resolveAddr .indirect o s = some (s.memRead o) ∧ resolveTarget .indirect o s = s.memRead o ∧
    (∀ a : Addr, (a.toNat : Int) = ((s.pc.toNat : Int) + signed8 o) % 256 →
      resolveAddr .relative o s = some a ∧ resolveTarget .relative o s = a) ∧
    (∀ (m : Mode) (ea : Addr), resolveAddr m o s = some ea →
      resolveValue m o s = s.memRead ea ∧ resolveTarget m o s = ea)

/-- R32: reading after a write gives the byte written at that cell and the earlier byte at every other cell, in
every memory, canonical or not. -/
def Obligations.MemoryReadAfterWrite : Prop :=
  (∀ (m : Memory) (a b : Nat) (v : Byte),
    Memory.read (Memory.write m a v) b = if b = a then v else Memory.read m b) ∧
  (∀ (s : State) (a b : Addr) (v : Byte),
    (s.memWrite a v).memRead b = if b = a then v else s.memRead b)

/-- 10_state.md section 7 ("No cell has identity beyond its address") in the model's representation (log entry 2):
two canonical memories that hold the same 256 bytes are equal data. -/
def Obligations.CanonicalMemoriesAreDeterminedByTheirCells : Prop :=
  ∀ m m' : Memory, m.wf = true → m'.wf = true →
    (∀ a : Addr, Memory.read m a.toNat = Memory.read m' a.toNat) → m = m'

/-- 42_alu.md, integer arithmetic laws (an inference of the spec): the closed forms of the four flags of ADD. -/
def Obligations.AddFlagsClosedForms : Prop :=
  ∀ a b r : Byte, r = addResult a b →
    (addCarry a b = true ↔ 256 ≤ a.toNat + b.toNat) ∧
    (addCarry a b = true ↔ r.toNat < a.toNat) ∧ (addCarry a b = true ↔ r.toNat < b.toNat) ∧
    (addOverflow a b = true ↔ (signed8 a + signed8 b < -128 ∨ 127 < signed8 a + signed8 b)) ∧
    addOverflow a b = ((a ^^^ r) &&& (b ^^^ r)).getLsbD 7 ∧
    (r = 0 ↔ (a.toNat + b.toNat = 0 ∨ a.toNat + b.toNat = 256))

/-- 42_alu.md, integer arithmetic laws (an inference of the spec): the same eight bits serve both readings. The
unsigned sum is right, or 256 too small when C is set; the signed sum is right when V is clear, and 256 off, with
the operands' common sign, when V is set. -/
def Obligations.AddServesBothReadings : Prop :=
  ∀ a b : Byte,
    (addCarry a b = false → (addResult a b).toNat = a.toNat + b.toNat) ∧
    (addCarry a b = true → (addResult a b).toNat + 256 = a.toNat + b.toNat) ∧
    (addOverflow a b = false → signed8 (addResult a b) = signed8 a + signed8 b) ∧
    (addOverflow a b = true →
      (0 ≤ signed8 a ∧ 0 ≤ signed8 b ∧ signed8 (addResult a b) < 0 ∧
        128 ≤ signed8 a + signed8 b ∧ signed8 a + signed8 b ≤ 254) ∨
      (signed8 a < 0 ∧ signed8 b < 0 ∧ 0 ≤ signed8 (addResult a b) ∧
        -256 ≤ signed8 a + signed8 b ∧ signed8 a + signed8 b ≤ -129))

/-! ### Frames of all instructions -/

/-- 10_state.md section 5 (that ADD clears C and V as well as sets them is the spec's decision D11, log entry 9):
the complete table of flag effects. ADD writes all four flags; NOT, LDA, OR and AND write N and Z from
the new AC and keep C and V; every other instruction keeps all four. -/
def Obligations.FlagEffectsOfEveryInstruction : Prop :=
  ∀ (i : Instr) (s t : State), exec i s = .next t →
    (∀ m o v, i = .add m o → resolveValue m o { s with pc := s.pc + 2 } = v →
      t.c = decide (255 < s.ac.toNat + v.toNat) ∧
      t.v = decide ((128 ≤ s.ac.toNat ↔ 128 ≤ v.toNat) ∧ ¬ (128 ≤ t.ac.toNat ↔ 128 ≤ s.ac.toNat))) ∧
    (isAdd i = false → t.c = s.c ∧ t.v = s.v) ∧
    (writesAC i = true → t.n = decide (128 ≤ t.ac.toNat) ∧ t.z = (t.ac.toNat == 0)) ∧
    (writesAC i = false → t.n = s.n ∧ t.z = s.z)

/-- 10_state.md section 11 (an inference of the spec; the Indirect store address is its decision D4, log entry 8):
who writes what. AC changes only in NOT, LDA, ADD, OR and AND, RS only in JSR, C and V only in ADD, N and Z only
with AC, and of memory only the one cell at the address STA resolves, which takes AC. -/
def Obligations.WhatEveryInstructionLeavesUnchanged : Prop :=
  ∀ (i : Instr) (s t : State), exec i s = .next t →
    (writesAC i = false → t.ac = s.ac ∧ t.n = s.n ∧ t.z = s.z) ∧
    (isJsr i = false → t.rs = s.rs) ∧
    (isAdd i = false → t.c = s.c ∧ t.v = s.v) ∧
    (∀ ea : Addr, storeAddr i s = some ea → t.memRead ea = s.ac) ∧
    (∀ a : Addr, storeAddr i s ≠ some a → t.memRead a = s.memRead a) ∧
    (storeAddr i s = none → t.mem = s.mem)

/-- R14: RS is written only by JSR, which overwrites what it held, and read only by RTS: another value in RS
changes nothing in what any other instruction does. -/
def Obligations.ReturnSlotHasOneWriterAndOneReader : Prop :=
  (∀ (i : Instr) (s t : State), exec i s = .next t → t.rs = if isJsr i then s.pc + 2 else s.rs) ∧
  (∀ (i : Instr) (s t : State) (r : Addr), i ≠ .rts → exec i s = .next t →
    exec i { s with rs := r } = .next { t with rs := if isJsr i then t.rs else r }) ∧
  (∀ s : State, exec .rts s = .next { s with pc := s.rs })

/-! ### Invariants -/

/-- Every step keeps memory in its canonical form, from every state that has it (log entry 2). -/
def Obligations.StepKeepsMemoryCanonical : Prop :=
  ∀ s t : State, s.mem.wf = true → step s = .next t → t.mem.wf = true

/-- 10_state.md section 9: after reset every cell reads 0x00, and the memory is canonical; PC, AC and RS are 0x00
and the flags 0 (the spec's decision D1, log entry 1), so that N describes AC and Z does not. -/
def Obligations.ResetStateIsAllZero : Prop :=
  State.reset.mem.wf = true ∧ (∀ a : Addr, State.reset.memRead a = 0) ∧
  State.reset.pc = 0 ∧ State.reset.ac = 0 ∧ State.reset.rs = 0 ∧
  State.reset.c = false ∧ State.reset.v = false ∧ State.reset.n = false ∧ State.reset.z = false ∧
  ¬ FlagsDescribeAC State.reset

/-- 70_reset_and_hazards.md section 6 (an inference of the spec): from every state, a step of NOT, LDA, ADD, OR or
AND leaves N and Z describing AC, and every step keeps what holds of them: N = AC[7] by itself, and both
equations together. -/
def Obligations.StepKeepsFlagsDescribingAC : Prop :=
  (∀ (s t : State) (i : Instr), fetchInstr s = some i → writesAC i = true → step s = .next t →
    FlagsDescribeAC t) ∧
  (∀ s t : State, s.n = s.ac.getLsbD 7 → step s = .next t → t.n = t.ac.getLsbD 7) ∧
  (∀ s t : State, FlagsDescribeAC s → step s = .next t → FlagsDescribeAC t)

/-- 70_reset_and_hazards.md section 6 (an inference of the spec; a sequence may go on past a HLT, which leaves no
latch: the spec's decision D5, log entries 3 and 14): along every sequence of steps from any state, RS
is the address two bytes after the last JSR executed, or the value it began with where no JSR was executed. -/
def Obligations.ReturnSlotHoldsTheLastReturnAddress : Prop :=
  ∀ (s t : State) (l : List (Addr × Instr)), Trace s l t → t.rs = lastReturnAddr s.rs l

/-- 43_control.md, laws of control transfer (an inference of the spec, which asks that no step in between halts; here
a HLT may stand in between and the sequence goes on past it, because it leaves no latch: the spec's decision D5, log
entries 3 and 14): a JSR at a0, then any number of steps none
of which is a JSR, then an RTS: PC is (a0 + 2) mod 256. If other JSRs are executed in between, the RTS goes two
bytes after the last of them instead, whatever the first one saved. -/
def Obligations.ReturnGoesAfterTheLastCall : Prop :=
  ∀ (s s1 s2 t : State) (m : Mode) (o : Byte) (l : List (Addr × Instr)),
    fetchInstr s = some (.jsr m o) → step s = .next s1 → Trace s1 l s2 →
    fetchInstr s2 = some .rts → step s2 = .next t →
    ((∀ p ∈ l, isJsr p.2 = false) → t.pc = s.pc + 2) ∧
    (∀ (l1 l2 : List (Addr × Instr)) (a : Addr) (j : Instr), l = l1 ++ (a, j) :: l2 → isJsr j = true →
      (∀ p ∈ l2, isJsr p.2 = false) → t.pc = a + 2)

/-! ### Memory accesses of a step -/

/-- 20_memory.md section 11 (the list and its order are the spec's decision D12, log entry 10): the memory a step
leaves is the memory it found with the writes of its accesses applied, and at most one of the accesses is a
write, the last one. -/
def Obligations.MemoryAfterAStepIsItsAccessesApplied : Prop :=
  (∀ s t : State, step s = .next t → t.mem = applyAccesses (stepAccesses s) s.mem) ∧
  (∀ (s : State) (l1 l2 : List Access) (a : Addr) (v : Byte),
    stepAccesses s = l1 ++ .write a v :: l2 → l2 = [] ∧ ∀ b w, Access.write b w ∉ l1)

/-- 20_memory.md sections 4 and 11 (decisions D7 and D12 of the spec, log entry 10): a step depends on no cell but
those its accesses read. With any other memory that agrees on these cells, the step completes likewise, leaves
the same registers and flags, and makes the same accesses; in particular a jump that is not taken depends
neither on its operand byte nor on a pointer cell. -/
def Obligations.StepDependsOnlyOnTheCellsItReads : Prop :=
  ∀ (s t : State) (mem' : Memory),
    (∀ a : Addr, Access.read a ∈ stepAccesses s → Memory.read mem' a.toNat = s.memRead a) →
    step s = .next t →
    stepAccesses { s with mem := mem' } = stepAccesses s ∧
    step { s with mem := mem' } = .next { t with mem := applyAccesses (stepAccesses s) mem' }

/-- 20_memory.md section 9 (an inference of the spec; that the operand is read before the store is its decision
D12, log entry 10, and the Indirect store address its decision D4, log entry 8): a STA at a0 that writes cell (a0
+ 2) mod 256 writes the opcode byte of the very next step, and a STA that overwrites its own opcode or operand
byte completes as it was fetched. -/
def Obligations.StoreIsSeenByTheNextFetch : Prop :=
  ∀ (s t : State) (m : Mode) (o : Byte) (ea : Addr), fetchInstr s = some (.sta m o) →
    resolveAddr m o { s with pc := s.pc + 2 } = some ea → step s = .next t →
    (ea = s.pc + 2 → fetchInstr t = decodeBytes s.ac (s.memRead (s.pc + 3))) ∧
    (ea = s.pc + 3 → fetchInstr t = decodeBytes (s.memRead (s.pc + 2)) s.ac) ∧
    (ea = s.pc ∨ ea = s.pc + 1 → t = { s with pc := s.pc + 2, mem := t.mem } ∧ t.memRead ea = s.ac)

/-! ### Runs -/

/-- 70_reset_and_hazards.md section 3 (FUEL is an open parameter, D14, log entry 21): once a run has ended within
a bound, every greater bound gives the same result; a run cut short goes on from the state it reached. -/
def Obligations.AGreaterBoundGivesTheSameRun : Prop :=
  (∀ (j k : Nat) (s : State) (r : RunResult), run j s = r → (∀ t, r ≠ .outOfFuel t) → run (j + k) s = r) ∧
  (∀ (j k : Nat) (s t : State), run j s = .outOfFuel t → run (j + k) s = run k t)

/-- 70_reset_and_hazards.md sections 3 and 6: with FUEL infinite (log entry 21) a run has at most one result. It
does not both halt and fault, and the state it halts in and the fault it ends with are unique. -/
def Obligations.ARunEndsInOneWay : Prop :=
  ∀ s t t' : State, ∀ f f' : Fault,
    (Halts s t → Halts s t' → t = t') ∧ (FaultsWith s f → FaultsWith s f' → f = f') ∧
      ¬ (Halts s t ∧ FaultsWith s f)

/-- 44_system.md and 70_reset_and_hazards.md section 3 (the signal is no state: the spec's decision D5, log entry 3): a
run that halts has executed completed steps that lead to
a state at whose PC a HLT byte stands, and the state it halts in is that state with PC one byte on. -/
def Obligations.AHaltedRunEndsAtAHlt : Prop :=
  ∀ s t : State, Halts s t →
    ∃ (l : List (Addr × Instr)) (u : State), Trace s l u ∧ (∀ p ∈ l, p.2 ≠ .hlt) ∧
      fetchInstr u = some .hlt ∧ t = { u with pc := u.pc + 1 }

/-- 43_control.md, JMP, corner case (a): a JMP to its own address, direct or relative, is an endless loop: no
bound ends it by itself, and it changes nothing. -/
def Obligations.AJumpToItselfNeverEnds : Prop :=
  ∀ (s : State) (k : Nat),
    (fetchInstr s = some (.jmp .direct s.pc) ∨ fetchInstr s = some (.jmp .relative 0xFE)) →
    run k s = .outOfFuel s

/-- 70_reset_and_hazards.md section 4 (that unwritten cells hold 0x00 is the spec's decision D9, log entry 12): in
a memory of zeros a run executes NOT over and over. After `k` steps PC is `k` further, wrapping, AC is
complemented once per step, nothing is written and nothing faults. -/
def Obligations.ZeroedMemoryRunsAsNots : Prop :=
  ∀ (s : State) (k : Nat), (∀ a : Addr, s.memRead a = 0) →
    ∃ t, run k s = .outOfFuel t ∧ t.pc = s.pc + BitVec.ofNat 8 k ∧
      t.ac = (if k % 2 = 0 then s.ac else ~~~ s.ac) ∧
      t.mem = s.mem ∧ t.rs = s.rs ∧ t.c = s.c ∧ t.v = s.v

/-! ### The assembler and the host's calls -/

/-- 40_assembler.md section 4 (an inference of the spec): the binary strategy is dead. A token of binary digits
and a `B` or `b` is read as a hexadecimal number, with that letter as its last digit, whatever the symbol table
holds. -/
def Obligations.ABinarySuffixIsReadAsAHexDigit : Prop :=
  ∀ (table : SymbolTable) (digits : List Char) (ch : Char),
    (∀ d ∈ digits, d = '0' ∨ d = '1') → (ch = 'B' ∨ ch = 'b') →
    ∃ k, digitsValue 16 hexDigit (digits ++ [ch]) = some (16 * k + 11) ∧
      parseValue table (digits ++ [ch]) = some (BitVec.ofNat 8 (16 * k + 11)) ∧
      parseValue table ('#' :: (digits ++ [ch])) = some (BitVec.ofNat 8 (16 * k + 11))

/-- 40_assembler.md section 7: a line with the mnemonic of a two-byte instruction and an operand that resolves
assembles to two bytes which the engine decodes as that instruction, with the mode of the operand's form and the
resolved byte as it stands; they are its encoding. -/
def Obligations.AnOperandLineAssemblesToItsInstruction : Prop :=
  ∀ (table : SymbolTable) (name tok : Token) (op : BitVec 4) (b : Byte),
    opcodeOf name = some op → lengthOfOpcode op = some 2 →
    parseValue table (stripSuffix tok) = some b →
    ∃ i bytes, bytesOf table (.mnemonic name (some tok)) = .ok bytes ∧ decode bytes = .ok (i, []) ∧
      i.opcode = op ∧ i.mode = addressingMode tok ∧ i.operand = some b ∧ encode i = bytes

/-- 40_assembler.md sections 3, 6 and 7: after pass 1 every label that a line defines stands for the address that
the counter has when the bookkeeping of both passes reaches that line, whatever `ASM_ADDR_OVERFLOW` is. -/
def Obligations.ALabelStandsForTheAddressOfItsLine : Prop :=
  ∀ (ov : AddrOverflow) (before after : List Line) (l : Line) (name : Token) (table : SymbolTable),
    l.label = some name → pass1 ov (before ++ l :: after) .start [] = .ok table →
    ∃ cur : Cursor,
      before.foldlM (fun c x => track ov c (x.stmt.getD .empty)) Cursor.start = .ok cur ∧
      SymbolTable.find table name = some cur.addr

/-- 40_assembler.md section 11 (that DB is accepted in .CODE too is the spec's decision D19, log entry 19): lines
of DB in an open section, each with a value that resolves, emit exactly these bytes one after another from the
counter's address on and leave every other cell alone, whatever `ASM_ADDR_OVERFLOW` is, while the counter does not
pass 255. A last byte at address 255, after which the counter passes it, is left to `ADataByteAtTheLastAddress`.
-/
def Obligations.DataLinesEmitTheirBytesInOrder : Prop :=
  ∀ (ov : AddrOverflow) (table : SymbolTable) (lines : List Line) (bytes : List Byte) (cur : Cursor) (m : Memory),
    List.Forall₂ (fun l b => ∃ tok, l.stmt = some (.db tok) ∧ parseValue table tok = some b) lines bytes →
    cur.sect.isSome = true → cur.addr.toNat + bytes.length ≤ 255 →
    ∃ m', pass2 ov table lines cur m = .ok m' ∧
      (∀ k b, bytes[k]? = some b → Memory.read m' (cur.addr.toNat + k) = b) ∧
      (∀ a, a < cur.addr.toNat ∨ cur.addr.toNat + bytes.length ≤ a → Memory.read m' a = Memory.read m a)

/-- 40_assembler.md sections 6 and 11: a source whose first line that is not skipped is a mnemonic without an open
section fails in pass 1 with a structural error that carries that line's number. -/
def Obligations.AMnemonicBeforeAnySectionFails : Prop :=
  ∀ (ov : AddrOverflow) (src : List Char) (l : Line) (rest : List Line) (name : Token) (operand : Option Token),
    linesOf src = l :: rest → l.stmt = some (.mnemonic name operand) →
    ∃ e, assemble ov src = .error e ∧ e.line = some l.number ∧ e.reason.kind = .structural

/-- 70_reset_and_hazards.md section 2: loading a program touches no register and no flag, keeps memory canonical,
and leaves the instance as it is but for memory and the symbol table; so a booted instance starts at 0x00 with
the registers and flags of reset (their values are the spec's decision D1, log entry 1). -/
def Obligations.LoadingTouchesMemoryAndSymbolsOnly : Prop :=
  (∀ (ov : AddrOverflow) (src : List Char) (m m' : Instance), m.load ov src = .ok m' →
    m'.state = { m.state with mem := m'.state.mem } ∧
    (m.state.mem.wf = true → m'.state.mem.wf = true)) ∧
  (∀ (ov : AddrOverflow) (src : List Char) (m : Instance), boot ov src = .ok m →
    m.state = { State.reset with mem := m.state.mem } ∧ m.state.mem.wf = true)

/-- A DB line with the counter at 255, the spec's open parameter `ASM_ADDR_OVERFLOW` (D17); that the counter passes
255 after this line, though no byte is written past it, is the model's reading (log entry 15), and that DB is
accepted in .CODE too is the spec's decision D19 (log entry 19). With `wrap` the byte is written at 255 and the
next line is assembled with the counter at 0; with `fail` pass 2 fails at this line. -/
def Obligations.ADataByteAtTheLastAddress : Prop :=
  ∀ (table : SymbolTable) (l : Line) (rest : List Line) (tok : Token) (b : Byte) (sect : Section) (m : Memory),
    l.stmt = some (.db tok) → parseValue table tok = some b →
    pass2 .wrap table (l :: rest) ⟨0xFF, some sect⟩ m =
      pass2 .wrap table rest ⟨0x00, some sect⟩ (Memory.write m 0xFF b) ∧
    pass2 .fail table (l :: rest) ⟨0xFF, some sect⟩ m = .error ⟨some l.number, .counterPastEnd⟩

/-- 70_reset_and_hazards.md section 5 (that the step is the unit of progress is the spec's decision D10, log entry 13;
that the halt signal ends the run its decision D5, log entry 3): a run that uses up its bound `k` has executed
exactly `k` instructions, none of them HLT, whatever their lengths, and `k` completed instructions without a HLT use
up exactly the bound `k`. -/
def Obligations.ABoundCountsInstructions : Prop :=
  ∀ (k : Nat) (s t : State), run k s = .outOfFuel t ↔
    ∃ l : List (Addr × Instr), l.length = k ∧ Trace s l t ∧ ∀ p ∈ l, p.2 ≠ .hlt
end

