-- ==== Sys2Proof/Laws/State.lean ====
section
/-! SUPPORT. One lemma per field per update of State, and what a byte of memory reads after an update. -/

namespace Sys2Proof.Machine

@[simp] theorem State.setAC_mem (s : State) (x : Byte) : (s.setAC x).mem = s.mem := rfl
@[simp] theorem State.setAC_ac (s : State) (x : Byte) : (s.setAC x).ac = x := rfl
@[simp] theorem State.setAC_pc (s : State) (x : Byte) : (s.setAC x).pc = s.pc := rfl
@[simp] theorem State.setAC_rs (s : State) (x : Byte) : (s.setAC x).rs = s.rs := rfl
@[simp] theorem State.setAC_c (s : State) (x : Byte) : (s.setAC x).c = s.c := rfl
@[simp] theorem State.setAC_v (s : State) (x : Byte) : (s.setAC x).v = s.v := rfl
@[simp] theorem State.setAC_n (s : State) (x : Byte) : (s.setAC x).n = s.n := rfl
@[simp] theorem State.setAC_z (s : State) (x : Byte) : (s.setAC x).z = s.z := rfl
@[simp] theorem State.setAC_memRead (s : State) (x : Byte) (y : Addr) : (s.setAC x).memRead y = s.memRead y := rfl

@[simp] theorem State.setPC_mem (s : State) (x : Addr) : (s.setPC x).mem = s.mem := rfl
@[simp] theorem State.setPC_ac (s : State) (x : Addr) : (s.setPC x).ac = s.ac := rfl
@[simp] theorem State.setPC_pc (s : State) (x : Addr) : (s.setPC x).pc = x := rfl
@[simp] theorem State.setPC_rs (s : State) (x : Addr) : (s.setPC x).rs = s.rs := rfl
@[simp] theorem State.setPC_c (s : State) (x : Addr) : (s.setPC x).c = s.c := rfl
@[simp] theorem State.setPC_v (s : State) (x : Addr) : (s.setPC x).v = s.v := rfl
@[simp] theorem State.setPC_n (s : State) (x : Addr) : (s.setPC x).n = s.n := rfl
@[simp] theorem State.setPC_z (s : State) (x : Addr) : (s.setPC x).z = s.z := rfl
@[simp] theorem State.setPC_memRead (s : State) (x : Addr) (y : Addr) : (s.setPC x).memRead y = s.memRead y := rfl

@[simp] theorem State.setRS_mem (s : State) (x : Addr) : (s.setRS x).mem = s.mem := rfl
@[simp] theorem State.setRS_ac (s : State) (x : Addr) : (s.setRS x).ac = s.ac := rfl
@[simp] theorem State.setRS_pc (s : State) (x : Addr) : (s.setRS x).pc = s.pc := rfl
@[simp] theorem State.setRS_rs (s : State) (x : Addr) : (s.setRS x).rs = x := rfl
@[simp] theorem State.setRS_c (s : State) (x : Addr) : (s.setRS x).c = s.c := rfl
@[simp] theorem State.setRS_v (s : State) (x : Addr) : (s.setRS x).v = s.v := rfl
@[simp] theorem State.setRS_n (s : State) (x : Addr) : (s.setRS x).n = s.n := rfl
@[simp] theorem State.setRS_z (s : State) (x : Addr) : (s.setRS x).z = s.z := rfl
@[simp] theorem State.setRS_memRead (s : State) (x : Addr) (y : Addr) : (s.setRS x).memRead y = s.memRead y := rfl

@[simp] theorem State.advance_mem (s : State) : s.advance.mem = s.mem := rfl
@[simp] theorem State.advance_ac (s : State) : s.advance.ac = s.ac := rfl
@[simp] theorem State.advance_pc (s : State) : s.advance.pc = s.pc + 1 := rfl
@[simp] theorem State.advance_rs (s : State) : s.advance.rs = s.rs := rfl
@[simp] theorem State.advance_c (s : State) : s.advance.c = s.c := rfl
@[simp] theorem State.advance_v (s : State) : s.advance.v = s.v := rfl
@[simp] theorem State.advance_n (s : State) : s.advance.n = s.n := rfl
@[simp] theorem State.advance_z (s : State) : s.advance.z = s.z := rfl
@[simp] theorem State.advance_memRead (s : State) (y : Addr) : s.advance.memRead y = s.memRead y := rfl

@[simp] theorem State.memWrite_mem (s : State) (a : Addr) (x : Byte) : (s.memWrite a x).mem = Memory.write s.mem a.toNat x := rfl
@[simp] theorem State.memWrite_ac (s : State) (a : Addr) (x : Byte) : (s.memWrite a x).ac = s.ac := rfl
@[simp] theorem State.memWrite_pc (s : State) (a : Addr) (x : Byte) : (s.memWrite a x).pc = s.pc := rfl
@[simp] theorem State.memWrite_rs (s : State) (a : Addr) (x : Byte) : (s.memWrite a x).rs = s.rs := rfl
@[simp] theorem State.memWrite_c (s : State) (a : Addr) (x : Byte) : (s.memWrite a x).c = s.c := rfl
@[simp] theorem State.memWrite_v (s : State) (a : Addr) (x : Byte) : (s.memWrite a x).v = s.v := rfl
@[simp] theorem State.memWrite_n (s : State) (a : Addr) (x : Byte) : (s.memWrite a x).n = s.n := rfl
@[simp] theorem State.memWrite_z (s : State) (a : Addr) (x : Byte) : (s.memWrite a x).z = s.z := rfl

@[simp] theorem State.updateNZ_mem (s : State) (x : Byte) : (s.updateNZ x).mem = s.mem := rfl
@[simp] theorem State.updateNZ_ac (s : State) (x : Byte) : (s.updateNZ x).ac = s.ac := rfl
@[simp] theorem State.updateNZ_pc (s : State) (x : Byte) : (s.updateNZ x).pc = s.pc := rfl
@[simp] theorem State.updateNZ_rs (s : State) (x : Byte) : (s.updateNZ x).rs = s.rs := rfl
@[simp] theorem State.updateNZ_c (s : State) (x : Byte) : (s.updateNZ x).c = s.c := rfl
@[simp] theorem State.updateNZ_v (s : State) (x : Byte) : (s.updateNZ x).v = s.v := rfl
@[simp] theorem State.updateNZ_n (s : State) (x : Byte) : (s.updateNZ x).n = x.getLsbD 7 := rfl
@[simp] theorem State.updateNZ_z (s : State) (x : Byte) : (s.updateNZ x).z = (x == 0) := rfl
@[simp] theorem State.updateNZ_memRead (s : State) (x : Byte) (y : Addr) : (s.updateNZ x).memRead y = s.memRead y := rfl

@[simp] theorem State.setCV_mem (s : State) (p q : Bool) : (s.setCV p q).mem = s.mem := rfl
@[simp] theorem State.setCV_ac (s : State) (p q : Bool) : (s.setCV p q).ac = s.ac := rfl
@[simp] theorem State.setCV_pc (s : State) (p q : Bool) : (s.setCV p q).pc = s.pc := rfl
@[simp] theorem State.setCV_rs (s : State) (p q : Bool) : (s.setCV p q).rs = s.rs := rfl
@[simp] theorem State.setCV_c (s : State) (p q : Bool) : (s.setCV p q).c = p := rfl
@[simp] theorem State.setCV_v (s : State) (p q : Bool) : (s.setCV p q).v = q := rfl
@[simp] theorem State.setCV_n (s : State) (p q : Bool) : (s.setCV p q).n = s.n := rfl
@[simp] theorem State.setCV_z (s : State) (p q : Bool) : (s.setCV p q).z = s.z := rfl
@[simp] theorem State.setCV_memRead (s : State) (p q : Bool) (y : Addr) : (s.setCV p q).memRead y = s.memRead y := rfl

@[simp] theorem State.loadAC_mem (s : State) (x : Byte) : (s.loadAC x).mem = s.mem := rfl
@[simp] theorem State.loadAC_ac (s : State) (x : Byte) : (s.loadAC x).ac = x := rfl
@[simp] theorem State.loadAC_pc (s : State) (x : Byte) : (s.loadAC x).pc = s.pc := rfl
@[simp] theorem State.loadAC_rs (s : State) (x : Byte) : (s.loadAC x).rs = s.rs := rfl
@[simp] theorem State.loadAC_c (s : State) (x : Byte) : (s.loadAC x).c = s.c := rfl
@[simp] theorem State.loadAC_v (s : State) (x : Byte) : (s.loadAC x).v = s.v := rfl
@[simp] theorem State.loadAC_n (s : State) (x : Byte) : (s.loadAC x).n = x.getLsbD 7 := rfl
@[simp] theorem State.loadAC_z (s : State) (x : Byte) : (s.loadAC x).z = (x == 0) := rfl
@[simp] theorem State.loadAC_memRead (s : State) (x : Byte) (y : Addr) : (s.loadAC x).memRead y = s.memRead y := rfl

@[simp] theorem jumpTo_mem (m : Mode) (o : Byte) (s : State) : (jumpTo m o s).mem = s.mem := rfl
@[simp] theorem jumpTo_ac (m : Mode) (o : Byte) (s : State) : (jumpTo m o s).ac = s.ac := rfl
@[simp] theorem jumpTo_pc (m : Mode) (o : Byte) (s : State) : (jumpTo m o s).pc = resolveTarget m o s := rfl
@[simp] theorem jumpTo_rs (m : Mode) (o : Byte) (s : State) : (jumpTo m o s).rs = s.rs := rfl
@[simp] theorem jumpTo_c (m : Mode) (o : Byte) (s : State) : (jumpTo m o s).c = s.c := rfl
@[simp] theorem jumpTo_v (m : Mode) (o : Byte) (s : State) : (jumpTo m o s).v = s.v := rfl
@[simp] theorem jumpTo_n (m : Mode) (o : Byte) (s : State) : (jumpTo m o s).n = s.n := rfl
@[simp] theorem jumpTo_z (m : Mode) (o : Byte) (s : State) : (jumpTo m o s).z = s.z := rfl

@[simp] theorem jumpIf_mem (p : Bool) (m : Mode) (o : Byte) (s : State) : (jumpIf p m o s).mem = s.mem := by
  cases p <;> rfl
@[simp] theorem jumpIf_ac (p : Bool) (m : Mode) (o : Byte) (s : State) : (jumpIf p m o s).ac = s.ac := by
  cases p <;> rfl
@[simp] theorem jumpIf_rs (p : Bool) (m : Mode) (o : Byte) (s : State) : (jumpIf p m o s).rs = s.rs := by
  cases p <;> rfl
@[simp] theorem jumpIf_c (p : Bool) (m : Mode) (o : Byte) (s : State) : (jumpIf p m o s).c = s.c := by
  cases p <;> rfl
@[simp] theorem jumpIf_v (p : Bool) (m : Mode) (o : Byte) (s : State) : (jumpIf p m o s).v = s.v := by
  cases p <;> rfl
@[simp] theorem jumpIf_n (p : Bool) (m : Mode) (o : Byte) (s : State) : (jumpIf p m o s).n = s.n := by
  cases p <;> rfl
@[simp] theorem jumpIf_z (p : Bool) (m : Mode) (o : Byte) (s : State) : (jumpIf p m o s).z = s.z := by
  cases p <;> rfl

end Sys2Proof.Machine
end

