-- ==== Sys2Proof/Laws/Memory.lean ====
section
/-! SUPPORT. The laws of memory: what each operation does to the canonical form, and what a cell reads after
erasing or inserting. -/

namespace Sys2Proof.Machine

/-! ### Reading -/

theorem Memory.read_erase_same (m : Memory) (a : Nat) : Memory.read (Memory.erase m a) a = Memory.unlisted := by
  induction m with
  | nil => rfl
  | cons p m ih =>
    obtain ⟨b, w⟩ := p
    by_cases h : a = b
    · simpa [Memory.erase, h] using h ▸ ih
    · simpa [Memory.erase, Memory.read, h] using ih

theorem Memory.read_erase_other (m : Memory) {a b : Nat} (hab : b ≠ a) :
    Memory.read (Memory.erase m a) b = Memory.read m b := by
  induction m with
  | nil => rfl
  | cons p m ih =>
    obtain ⟨d, w⟩ := p
    by_cases h : a = d
    · subst h; simp [Memory.erase, Memory.read, hab, ih]
    · simp [Memory.erase, Memory.read, h, ih]

/-- Reading after an insertion into a memory that lists nothing for the cell. -/
theorem Memory.read_insert_erase (m : Memory) (a b : Nat) (v : Byte) :
    Memory.read (Memory.insert (Memory.erase m a) a v) b = if b = a then v else Memory.read m b := by
  induction m with
  | nil => by_cases h : b = a <;> simp [Memory.erase, Memory.insert, Memory.read, h]
  | cons p m ih =>
    obtain ⟨d, w⟩ := p
    by_cases had : a = d
    · subst had
      by_cases hb : b = a
      · simpa [Memory.erase, hb] using ih
      · simpa [Memory.erase, Memory.read, hb] using ih
    · by_cases hlt : a < d
      · by_cases hb : b = a
        · simp [Memory.erase, Memory.insert, Memory.read, had, hlt, hb]
        · simp [Memory.erase, Memory.insert, Memory.read, had, hlt, hb, Memory.read_erase_other m hb]
      · by_cases hb : b = a
        · simpa [Memory.erase, Memory.insert, Memory.read, had, hlt, hb] using ih
        · by_cases hbd : b = d
          · simp [Memory.erase, Memory.insert, Memory.read, had, hlt, hbd, Ne.symm had]
          · simpa [Memory.erase, Memory.insert, Memory.read, had, hlt, hb, hbd] using ih

/-! ### The canonical form -/

theorem Memory.wfFrom_mono {m : Memory} {lo lo' : Nat} (h : lo' ≤ lo) (hm : Memory.wfFrom lo m = true) :
    Memory.wfFrom lo' m = true := by
  cases m with
  | nil => rfl
  | cons p m =>
    obtain ⟨b, w⟩ := p
    simp only [Memory.wfFrom, Bool.and_eq_true, decide_eq_true_eq] at hm ⊢
    exact ⟨⟨⟨by omega, hm.1.1.2⟩, hm.1.2⟩, hm.2⟩

theorem Memory.erase_wfFrom {m : Memory} {lo : Nat} (a : Nat) (hm : Memory.wfFrom lo m = true) :
    Memory.wfFrom lo (Memory.erase m a) = true := by
  induction m generalizing lo with
  | nil => rfl
  | cons p m ih =>
    obtain ⟨b, w⟩ := p
    simp only [Memory.wfFrom, Bool.and_eq_true, decide_eq_true_eq] at hm
    by_cases h : a = b
    · simpa [Memory.erase, h] using Memory.wfFrom_mono (by omega) (h ▸ ih hm.2)
    · simp only [Memory.erase, h, if_false, Memory.wfFrom, Bool.and_eq_true, decide_eq_true_eq]
      exact ⟨hm.1, ih hm.2⟩

theorem Memory.insert_erase_wfFrom {m : Memory} {lo a : Nat} {v : Byte} (hm : Memory.wfFrom lo m = true)
    (hlo : lo ≤ a) (ha : a < memSize) (hv : (v != Memory.unlisted) = true) :
    Memory.wfFrom lo (Memory.insert (Memory.erase m a) a v) = true := by
  induction m generalizing lo with
  | nil => simp [Memory.erase, Memory.insert, Memory.wfFrom, hlo, ha, hv]
  | cons p m ih =>
    obtain ⟨b, w⟩ := p
    simp only [Memory.wfFrom, Bool.and_eq_true, decide_eq_true_eq] at hm
    by_cases hab : a = b
    · rw [show Memory.erase ((b, w) :: m) a = Memory.erase m a by simp [Memory.erase, hab]]
      exact ih (Memory.wfFrom_mono (by omega) hm.2) hlo
    · by_cases hlt : a < b
      · simp only [Memory.erase, hab, if_false, Memory.insert, hlt, if_true, Memory.wfFrom, Bool.and_eq_true,
          decide_eq_true_eq]
        exact ⟨⟨⟨hlo, ha⟩, hv⟩, ⟨⟨by omega, hm.1.1.2⟩, hm.1.2⟩, Memory.erase_wfFrom a hm.2⟩
      · simp only [Memory.erase, hab, if_false, Memory.insert, hlt, Memory.wfFrom, Bool.and_eq_true,
          decide_eq_true_eq]
        exact ⟨hm.1, ih hm.2 (by omega)⟩

/-- A write keeps the canonical form. -/
theorem Memory.write_wf {m : Memory} {a : Nat} {v : Byte} (ha : a < memSize) (hm : m.wf = true) :
    (Memory.write m a v).wf = true := by
  unfold Memory.write
  split
  · exact Memory.erase_wfFrom a hm
  · next h => exact Memory.insert_erase_wfFrom hm (Nat.zero_le a) ha (by simpa using h)

/-- The one writing operation of the machine keeps the canonical form. -/
theorem State.memWrite_wf {s : State} (a : Addr) (v : Byte) (hm : s.mem.wf = true) :
    (s.memWrite a v).mem.wf = true :=
  Memory.write_wf a.isLt hm

/-- Placing an instruction keeps the canonical form. -/
theorem State.placeBytes_wf {s : State} (b o : Byte) (hm : s.mem.wf = true) :
    (s.placeBytes b o).mem.wf = true :=
  State.memWrite_wf _ _ (State.memWrite_wf _ _ hm)

theorem State.reset_mem_wf : State.reset.mem.wf = true := rfl

end Sys2Proof.Machine
end

