-- ==== Sys2Proof/Laws/Ops.lean ====
section
/-! SUPPORT. One lemma per shared operation that says all it can do, and the inversion of a step. -/

namespace Sys2Proof.Machine

/-- An execution error is never a next state. -/
@[simp] theorem raiseError_ne_next (kind : Addr → Fault) (s t : State) : raiseError kind s ≠ .next t := by
  simp [raiseError]

/-- An execution error is the one fault of its kind at PC. -/
@[simp] theorem raiseError_eq_fault (kind : Addr → Fault) (s : State) (f : Fault) :
    raiseError kind s = .fault f ↔ kind s.pc = f := by
  simp [raiseError]

/-- Two bytes of advance. -/
theorem State.advance_advance (s : State) : s.advance.advance = { s with pc := s.pc + 2 } := by
  simp [State.advance, State.setPC, BitVec.add_assoc]

/-- `signed8` is the two's-complement reading of the bit vector. -/
theorem signed8_eq_toInt (b : Byte) : signed8 b = b.toInt := by
  unfold signed8
  rw [BitVec.toInt_eq_toNat_cond]
  split <;> split <;> omega

/-- The Relative sum is addition of bytes. -/
theorem relativeAddr_eq_add (pc : Addr) (o : Byte) : relativeAddr pc o = pc + o := by
  unfold relativeAddr
  rw [signed8_eq_toInt, BitVec.ofInt_add, BitVec.ofInt_natCast, BitVec.ofNat_toNat, BitVec.ofInt_toInt]
  simp

/-- `resolveAddr` answers no address in Immediate mode only. -/
theorem resolveAddr_eq_none (m : Mode) (o : Byte) (s : State) : resolveAddr m o s = none ↔ m = .immediate := by
  cases m <;> simp [resolveAddr]

/-- A conditional jump ends in one of two states. -/
theorem jumpIf_cases (f : Bool) (m : Mode) (o : Byte) (s : State) :
    (f = true ∧ jumpIf f m o s = jumpTo m o s.advance.advance) ∨ (f = false ∧ jumpIf f m o s = s.advance.advance) := by
  cases f <;> simp [jumpIf]

/-- STA either faults, in Immediate mode, or stores. -/
theorem execSta_cases (m : Mode) (o : Byte) (s : State) :
    (m = .immediate ∧ execSta m o s = .fault (.invalidAddressingMode s.pc)) ∨
    (∃ ea, resolveAddr m o s.advance.advance = some ea ∧
      execSta m o s = .next (s.advance.advance.memWrite ea s.ac)) := by
  cases m <;> simp [execSta, resolveAddr, raiseError]

/-- A step answers a next state only by executing the instruction it fetched. -/
theorem step_eq_next {s t : State} (h : step s = .next t) : ∃ i, fetchInstr s = some i ∧ exec i s = .next t := by
  unfold step at h
  split at h
  · next i hi => exact ⟨i, hi, h⟩
  · simp at h

/-- The step of a state whose instruction is known. -/
theorem step_of_fetch {s : State} {i : Instr} (h : fetchInstr s = some i) : step s = exec i s := by
  simp [step, h]

/-- The step of a state whose opcode byte names no instruction. -/
theorem step_of_unknown {s : State} (h : fetchInstr s = none) : step s = .fault (.unknownOpcode s.pc) := by
  simp [step, h, raiseError]

/-- A step that continues: it completed, and its instruction is not HLT. -/
theorem fetchStep_eq_continued {s t : State} :
    fetchStep s = .continued t ↔ step s = .next t ∧ signalsContinue s = true := by
  unfold fetchStep
  split <;> try split
  all_goals simp_all

/-- A step that halts: it completed, and its instruction signals it. -/
theorem fetchStep_eq_halted {s t : State} :
    fetchStep s = .halted t ↔ step s = .next t ∧ signalsContinue s = false := by
  unfold fetchStep
  split <;> try split
  all_goals simp_all

/-- A step that ends in an execution error. -/
theorem fetchStep_eq_faulted {s : State} {f : Fault} : fetchStep s = .faulted f ↔ step s = .fault f := by
  unfold fetchStep
  split <;> try split
  all_goals simp_all

end Sys2Proof.Machine
end

