-- ==== Sys2Proof/Laws/PerInstr.lean ====
section
/-! SUPPORT. Statements made per instruction: the shape of an encoding (R50, R51, R57). -/

namespace Sys2Proof.Laws

/-- The encoding of an instruction begins with its opcode number and its mode number in their fields, bits 1:0
zero, and the operand byte follows where the instruction has one. -/
def EncodedShape.Statement (i : Instr) : Prop :=
  ∃ b, encode i = b :: i.operand.toList ∧ (opcodeField b = i.opcode ∧ modeField b = i.mode ∧
    b.extractLsb' 0 2 = 0) ∧ lengthOfOpcode i.opcode = some i.size

/-- The three fields of an opcode byte that the encoder made. -/
theorem EncodedShape.fields (op : BitVec 4) (m : Mode) :
    opcodeField (encodeFields op m) = op ∧ modeField (encodeFields op m) = m ∧
      (encodeFields op m).extractLsb' 0 2 = 0 := by
  revert op
  cases m <;> decide

theorem EncodedShape.not : EncodedShape.Statement .not := ⟨_, rfl, EncodedShape.fields _ _, rfl⟩
theorem EncodedShape.sta (m : Mode) (o : Byte) : EncodedShape.Statement (.sta m o) :=
  ⟨_, rfl, EncodedShape.fields _ m, rfl⟩
theorem EncodedShape.lda (m : Mode) (o : Byte) : EncodedShape.Statement (.lda m o) :=
  ⟨_, rfl, EncodedShape.fields _ m, rfl⟩
theorem EncodedShape.add (m : Mode) (o : Byte) : EncodedShape.Statement (.add m o) :=
  ⟨_, rfl, EncodedShape.fields _ m, rfl⟩
theorem EncodedShape.or (m : Mode) (o : Byte) : EncodedShape.Statement (.or m o) :=
  ⟨_, rfl, EncodedShape.fields _ m, rfl⟩
theorem EncodedShape.and (m : Mode) (o : Byte) : EncodedShape.Statement (.and m o) :=
  ⟨_, rfl, EncodedShape.fields _ m, rfl⟩
theorem EncodedShape.jmp (m : Mode) (o : Byte) : EncodedShape.Statement (.jmp m o) :=
  ⟨_, rfl, EncodedShape.fields _ m, rfl⟩
theorem EncodedShape.jc (m : Mode) (o : Byte) : EncodedShape.Statement (.jc m o) :=
  ⟨_, rfl, EncodedShape.fields _ m, rfl⟩
theorem EncodedShape.jn (m : Mode) (o : Byte) : EncodedShape.Statement (.jn m o) :=
  ⟨_, rfl, EncodedShape.fields _ m, rfl⟩
theorem EncodedShape.jz (m : Mode) (o : Byte) : EncodedShape.Statement (.jz m o) :=
  ⟨_, rfl, EncodedShape.fields _ m, rfl⟩
theorem EncodedShape.jsr (m : Mode) (o : Byte) : EncodedShape.Statement (.jsr m o) :=
  ⟨_, rfl, EncodedShape.fields _ m, rfl⟩
theorem EncodedShape.rts : EncodedShape.Statement .rts := ⟨_, rfl, EncodedShape.fields _ _, rfl⟩
theorem EncodedShape.jv (m : Mode) (o : Byte) : EncodedShape.Statement (.jv m o) :=
  ⟨_, rfl, EncodedShape.fields _ m, rfl⟩
theorem EncodedShape.hlt : EncodedShape.Statement .hlt := ⟨_, rfl, EncodedShape.fields _ _, rfl⟩

end Sys2Proof.Laws
end

