-- ==== Sys2Proof/Tests/Slice0.lean ====
section
/-! SUPPORT. Tests. Every expected value is taken from the worked examples and vectors of spec/95_test_vectors.md or of
the instruction's own rule; the name of the vector stands in the comment. Then a witness for each statement of
Certificates/Slice0/Obligations.lean that has hypotheses. -/

namespace Sys2Proof.Tests

open Sys2Proof.Machine

/-! ### Helpers -/

/-- A state with these cells, PC, AC and RS. The cells are given in canonical form. -/
def mk (mem : Memory) (pc : Addr := 0) (ac : Byte := 0) (rs : Addr := 0) : State :=
  { State.reset with mem := mem, pc := pc, ac := ac, rs := rs }

/-- The same state with these flags, in the order C, V, N, Z. -/
def fl (s : State) (c v n z : Bool) : State := { s with c := c, v := v, n := n, z := z }

/-- The next state, where there is one. -/
def nextOf : Host.Outcome State Fault Refusal → Option State
  | .next t => some t
  | .fault _ => none
  | .refused _ => none

/-- The fault, where there is one. -/
def faultOf : Host.Outcome State Fault Refusal → Option Fault
  | .fault f => some f
  | .next _ => none
  | .refused _ => none

theorem next_of_nextOf {o : Host.Outcome State Fault Refusal} {t : State} (h : nextOf o = some t) : o = .next t := by
  cases o <;> simp_all [nextOf]

/-! ### Well-formedness: the one check, and the term it refuses (30_encoding.md R59) -/

theorem test_wellFormed_refuses_sta_immediate : Instr.wellFormed (.sta .immediate 0x05) = false := by decide
theorem test_wellFormed_admits_sta_direct : Instr.wellFormed (.sta .direct 0x05) = true := by decide
theorem test_wellFormed_admits_jmp_immediate : Instr.wellFormed (.jmp .immediate 0x05) = true := by decide

/-! ### Decoding: a word of each instruction written out from the fields of R51 and the opcode map of R56 -/

theorem test_decode_not : decode [0b0000_00_00] = .ok (.not, []) := by rfl
theorem test_decode_not_ignored_bits : decodeBytes 0b0000_11_11 0xAA = some .not := by decide
theorem test_decode_sta : decode [0b0001_10_00, 0x31] = .ok (.sta .indirect 0x31, []) := by rfl
theorem test_decode_lda : decode [0b0100_11_00, 0xFE, 0x99] = .ok (.lda .relative 0xFE, [0x99]) := by rfl
theorem test_decode_lda_reserved_bits : decodeBytes 0b0100_00_11 0x05 = some (.lda .immediate 0x05) := by decide
theorem test_decode_add : decode [0b0101_01_00, 0x0A] = .ok (.add .direct 0x0A, []) := by rfl
theorem test_decode_or : decode [0b0110_00_00, 0xF0] = .ok (.or .immediate 0xF0, []) := by rfl
theorem test_decode_and : decode [0b0111_10_00, 0x40] = .ok (.and .indirect 0x40, []) := by rfl
theorem test_decode_jmp : decode [0b1000_11_00, 0xF0] = .ok (.jmp .relative 0xF0, []) := by rfl
theorem test_decode_jc : decode [0b1001_01_00, 0x20] = .ok (.jc .direct 0x20, []) := by rfl
theorem test_decode_jn : decode [0b1010_11_00, 0x02] = .ok (.jn .relative 0x02, []) := by rfl
theorem test_decode_jz : decode [0b1011_10_00, 0x20] = .ok (.jz .indirect 0x20, []) := by rfl
theorem test_decode_jsr : decode [0b1100_01_00, 0x10] = .ok (.jsr .direct 0x10, []) := by rfl
theorem test_decode_rts : decode [0b1101_00_00] = .ok (.rts, []) := by rfl
theorem test_decode_rts_ignored_bits : decode [0b1101_11_11, 0x01] = .ok (.rts, [0x01]) := by rfl
theorem test_decode_jv : decode [0b1110_01_00, 0x20] = .ok (.jv .direct 0x20, []) := by rfl
theorem test_decode_hlt : decode [0b1111_00_00] = .ok (.hlt, []) := by rfl
theorem test_decode_unknown_2 : decode [0b0010_11_00, 0x00] = .error .unknownOpcode := by rfl
theorem test_decode_unknown_3 : decode [0b0011_11_11] = .error .unknownOpcode := by rfl
theorem test_decode_truncated : decode [0b0100_00_00] = .error .truncated := by rfl
theorem test_encode_sta : encode (.sta .relative 0xFE) = [0x1C, 0xFE] := by decide
theorem test_encode_hlt : encode .hlt = [0xF0] := by decide
theorem test_decodeTableWord_two_bytes : decodeTableWord 16 0x0A54 = some (.add .direct 0x0A) := by decide
theorem test_decodeTableWord_short : decodeTableWord 8 0x44 = some (.lda .direct 0x00) := by decide
theorem test_withFetchWord_runs : nextOf (step (State.reset.withFetchWord 16 0x0540)) =
    some (mk [(0, 0x40), (1, 0x05)] 0x02 0x05) := by decide

/-! ### One step of each instruction -/

-- A1
theorem test_not : nextOf (step (mk [] 0 0x04)) = some (fl (mk [] 1 0xFB) false false true false) := by decide
-- A3, with C and V kept
theorem test_not_to_zero : nextOf (step (fl (mk [] 0 0xFF) true true true false)) =
    some (fl (mk [] 1 0x00) true true false true) := by decide
-- L14
theorem test_sta_indirect : nextOf (step (mk [(0x10, 0x18), (0x11, 0x31), (0x31, 0x32)] 0x10 0x2A)) =
    some (mk [(0x10, 0x18), (0x11, 0x31), (0x31, 0x32), (0x32, 0x2A)] 0x12 0x2A) := by decide
-- L18
theorem test_sta_immediate : faultOf (step (mk [(0x06, 0x10), (0x07, 0x0C)] 0x06 0x07)) =
    some (.invalidAddressingMode 0x06) := by decide
-- L5
theorem test_lda_indirect : nextOf (step (mk [(0x10, 0x48), (0x11, 0x80), (0x80, 0x90), (0x90, 0x37)] 0x10)) =
    some (mk [(0x10, 0x48), (0x11, 0x80), (0x80, 0x90), (0x90, 0x37)] 0x12 0x37) := by decide
-- L9
theorem test_lda_relative_wraps : nextOf (step (mk [(0x05, 0x77), (0xFE, 0x4C), (0xFF, 0x05)] 0xFE)) =
    some (mk [(0x05, 0x77), (0xFE, 0x4C), (0xFF, 0x05)] 0x00 0x77) := by decide
-- D3v
theorem test_add_all_flags : nextOf (step (mk [(0, 0x50), (1, 0x80)] 0 0x80)) =
    some (fl (mk [(0, 0x50), (1, 0x80)] 2 0x00) true true false true) := by decide
-- D4v: ADD #0 clears C and V
theorem test_add_clears : nextOf (step (fl (mk [(0, 0x50)] 0 0x00) true true true false)) =
    some (fl (mk [(0, 0x50)] 2 0x00) false false false true) := by decide
-- A6
theorem test_or : nextOf (step (fl (mk [(0, 0x60), (1, 0xF0)] 0 0x0F) true false false false)) =
    some (fl (mk [(0, 0x60), (1, 0xF0)] 2 0xFF) true false true false) := by decide
-- A12
theorem test_and_indirect : nextOf (step (mk [(0, 0x78), (1, 0x40), (0x40, 0x41), (0x41, 0x0F)] 0 0x5A)) =
    some (mk [(0, 0x78), (1, 0x40), (0x40, 0x41), (0x41, 0x0F)] 2 0x0A) := by decide
-- J3: one dereference
theorem test_jmp_indirect : nextOf (step (mk [(0x02, 0x77), (0x10, 0x88), (0x11, 0x30), (0x30, 0x02)] 0x10)) =
    some (mk [(0x02, 0x77), (0x10, 0x88), (0x11, 0x30), (0x30, 0x02)] 0x02) := by decide
-- J8
theorem test_jmp_relative : nextOf (step (mk [(0x10, 0x8C), (0x11, 0x80)] 0x10)) =
    some (mk [(0x10, 0x8C), (0x11, 0x80)] 0x92) := by decide
-- K1, K2
theorem test_jc_taken : nextOf (step (fl (mk [(4, 0x94), (5, 0x20)] 4) true false false false)) =
    some (fl (mk [(4, 0x94), (5, 0x20)] 0x20) true false false false) := by decide
theorem test_jc_not_taken : nextOf (step (fl (mk [(4, 0x94), (5, 0x20)] 4) false true true true)) =
    some (fl (mk [(4, 0x94), (5, 0x20)] 6) false true true true) := by decide
-- K3, K4
theorem test_jn_taken : nextOf (step (fl (mk [(4, 0xAC), (5, 0x02)] 4) false false true false)) =
    some (fl (mk [(4, 0xAC), (5, 0x02)] 8) false false true false) := by decide
theorem test_jn_not_taken : nextOf (step (fl (mk [(4, 0xAC), (5, 0x02)] 4) true true false true)) =
    some (fl (mk [(4, 0xAC), (5, 0x02)] 6) true true false true) := by decide
-- K7, K12
theorem test_jz_taken : nextOf (step (fl (mk [(4, 0xB8), (5, 0x20), (0x20, 0x55)] 4) false false false true)) =
    some (fl (mk [(4, 0xB8), (5, 0x20), (0x20, 0x55)] 0x55) false false false true) := by decide
theorem test_jz_not_taken_wraps : nextOf (step (mk [(0, 0x20), (0xFF, 0xB4)] 0xFF)) =
    some (mk [(0, 0x20), (0xFF, 0xB4)] 0x01) := by decide
-- K9, K10
theorem test_jv_taken : nextOf (step (fl (mk [(4, 0xE4), (5, 0x20)] 4) false true false false)) =
    some (fl (mk [(4, 0xE4), (5, 0x20)] 0x20) false true false false) := by decide
theorem test_jv_not_taken : nextOf (step (fl (mk [(4, 0xE4), (5, 0x20)] 4) true false false false)) =
    some (fl (mk [(4, 0xE4), (5, 0x20)] 6) true false false false) := by decide
-- Q2, Q5
theorem test_jsr_relative : nextOf (step (mk [(2, 0xCC)] 2 0 0x99)) = some (mk [(2, 0xCC)] 4 0 4) := by decide
theorem test_jsr_wraps : nextOf (step (mk [(0, 0x10), (0xFF, 0xC4)] 0xFF)) =
    some (mk [(0, 0x10), (0xFF, 0xC4)] 0x10 0 0x01) := by decide
-- Q9
theorem test_rts : nextOf (step (mk [(0x12, 0xDF)] 0x12 0 0x04)) = some (mk [(0x12, 0xDF)] 0x04 0 0x04) := by decide
-- Q12
theorem test_hlt : fetchStep (mk [(9, 0xFF)] 9) = .halted (mk [(9, 0xFF)] 0x0A) := by decide
-- X2
theorem test_unknown_opcode : faultOf (step (mk [(0x80, 0x3F)] 0x80)) = some (.unknownOpcode 0x80) := by decide

/-! ### The assembler (40_assembler.md; vectors of section 2.6) -/

theorem test_parse_decimal : parseValue [] "#10".toList = some 0x0A := by decide
theorem test_parse_binary_is_hex : parseValue [] "1010b".toList = some 0x0B := by decide
theorem test_parse_shadowed : parseValue [("FACH".toList, 0x33)] "FACH".toList = some 0xAC := by decide
theorem test_parse_symbol : parseValue [("LOOP".toList, 0x02)] "#LOOP".toList = some 0x02 := by decide
theorem test_parse_none : parseValue [] "12G".toList = none := by decide
-- FWD
theorem test_assemble_forward :
    assemble .fail ".CODE #00\n JMP LATER\n NOT\nLATER: HLT\n.ENDCODE".toList =
      .ok ([(0, 0x84), (1, 0x03), (3, 0xF0)], [("LATER".toList, 0x03)]) := by rfl
-- F7
theorem test_assemble_mnemonic_in_data :
    assemble .wrap ".DATA #10\nLDA #1\n.ENDDATA".toList = .error ⟨some 2, .mnemonicInData⟩ := by rfl

/-! ### Witnesses

For each statement of Certificates/Slice0/Obligations.lean that has hypotheses, a concrete state and concrete
operands that meet all of them together, with one conjunct per clause, at boundary values where a clause has a
range. They show that the hypotheses are not empty; they claim nothing else. -/

/-- JSR 0x08 at 0x00, HLT at 0x02, JSR 0x0A at 0x04, RTS at 0x06, JMP 0x04 at 0x08, NOT at 0x0A, RTS at 0x0B. -/
def callMem : Memory :=
  [(0x00, 0xC4), (0x01, 0x08), (0x02, 0xF0), (0x04, 0xC4), (0x05, 0x0A), (0x06, 0xD0), (0x08, 0x84), (0x09, 0x04),
   (0x0B, 0xD0)]

/-- JSR 0x0A at 0x00, NOT at 0x0A, RTS at 0x0B. -/
def leafMem : Memory := [(0x00, 0xC4), (0x01, 0x0A), (0x0B, 0xD0)]

/-- One more completed step at the front of a trace, from what the decoder and the step answer. -/
theorem trace_cons {s t u : State} {a : Addr} {i : Instr} {l : List (Addr × Instr)} (ha : s.pc = a)
    (hi : fetchInstr s = some i) (hs : nextOf (step s) = some t) (h : Trace t l u) : Trace s ((a, i) :: l) u :=
  ha ▸ Trace.cons hi (next_of_nextOf hs) h

-- Encoding
theorem witness_EncodeOfDecodeDiffersOnlyInIgnoredBits :
    decode [0x57, 0x0A, 0x99] = .ok (.add .direct 0x0A, [0x99]) ∧ Instr.size (.add .direct 0x0A) = 2 ∧
    decode [0xDF, 0x01] = .ok (.rts, [0x01]) := ⟨rfl, rfl, rfl⟩

theorem witness_IgnoredBitsDoNotMatter :
    (0x54 : Byte).toNat / 4 = (0x57 : Byte).toNat / 4 ∧
    (0x00 : Byte).toNat / 16 = (0x0F : Byte).toNat / 16 ∧ (0x0F : Byte).toNat / 16 ∈ [0x0, 0xD, 0xF] ∧
    (0xF0 : Byte).toNat / 16 = (0xFF : Byte).toNat / 16 ∧ (0xFF : Byte).toNat / 16 ∈ [0x0, 0xD, 0xF] := by decide

theorem witness_LengthIsFixedByOpcode :
    (0x20 : Byte).toNat / 16 ∈ [0x2, 0x3] ∧ (0x3F : Byte).toNat / 16 ∈ [0x2, 0x3] ∧
    (0x0F : Byte).toNat / 16 ∈ [0x0, 0xD, 0xF] ∧ (0xF0 : Byte).toNat / 16 ∈ [0x0, 0xD, 0xF] ∧
    (0x1F : Byte).toNat / 16 ∉ [0x0, 0x2, 0x3, 0xD, 0xF] ∧ (0x40 : Byte).toNat / 16 ∉ [0x0, 0x2, 0x3, 0xD, 0xF] ∧
    (0xEF : Byte).toNat / 16 ∉ [0x0, 0x2, 0x3, 0xD, 0xF] := by decide

/-- The opcode bytes 0x?0 and 0x?F of every instruction meet the hypothesis of its decoding clause. -/
theorem witness_decoding_clauses :
    (0x00 : Byte).toNat / 16 = 0x0 ∧ (0x0F : Byte).toNat / 16 = 0x0 ∧
    (0x10 : Byte).toNat / 16 = 0x1 ∧ (0x1F : Byte).toNat / 16 = 0x1 ∧
    (0x40 : Byte).toNat / 16 = 0x4 ∧ (0x4F : Byte).toNat / 16 = 0x4 ∧
    (0x50 : Byte).toNat / 16 = 0x5 ∧ (0x5F : Byte).toNat / 16 = 0x5 ∧
    (0x60 : Byte).toNat / 16 = 0x6 ∧ (0x6F : Byte).toNat / 16 = 0x6 ∧
    (0x70 : Byte).toNat / 16 = 0x7 ∧ (0x7F : Byte).toNat / 16 = 0x7 ∧
    (0x80 : Byte).toNat / 16 = 0x8 ∧ (0x8F : Byte).toNat / 16 = 0x8 ∧
    (0x90 : Byte).toNat / 16 = 0x9 ∧ (0x9F : Byte).toNat / 16 = 0x9 ∧
    (0xA0 : Byte).toNat / 16 = 0xA ∧ (0xAF : Byte).toNat / 16 = 0xA ∧
    (0xB0 : Byte).toNat / 16 = 0xB ∧ (0xBF : Byte).toNat / 16 = 0xB ∧
    (0xC0 : Byte).toNat / 16 = 0xC ∧ (0xCF : Byte).toNat / 16 = 0xC ∧
    (0xD0 : Byte).toNat / 16 = 0xD ∧ (0xDF : Byte).toNat / 16 = 0xD ∧
    (0xE0 : Byte).toNat / 16 = 0xE ∧ (0xEF : Byte).toNat / 16 = 0xE ∧
    (0xF0 : Byte).toNat / 16 = 0xF ∧ (0xFF : Byte).toNat / 16 = 0xF := by decide

-- The step
theorem witness_StepRunsTheDecodedInstruction :
    decode [(mk [(0, 0x05), (0xFF, 0x40)] 0xFF).memRead (mk [(0, 0x05), (0xFF, 0x40)] 0xFF).pc,
      (mk [(0, 0x05), (0xFF, 0x40)] 0xFF).memRead ((mk [(0, 0x05), (0xFF, 0x40)] 0xFF).pc + 1)] =
      .ok (.lda .immediate 0x05, []) := rfl

/-- Both ends of each of the three ranges. -/
theorem witness_EveryOtherOpcodeByteCompletes :
    ((mk []).memRead (mk []).pc).toNat = 0x00 ∧
    ((mk [(0, 0x0F)]).memRead (mk [(0, 0x0F)]).pc).toNat = 0x0F ∧
    ((mk [(0, 0x14)]).memRead (mk [(0, 0x14)]).pc).toNat = 0x14 ∧
    ((mk [(0, 0x1F)]).memRead (mk [(0, 0x1F)]).pc).toNat = 0x1F ∧
    ((mk [(0, 0x40)]).memRead (mk [(0, 0x40)]).pc).toNat = 0x40 ∧
    ((mk [(0, 0xFF)]).memRead (mk [(0, 0xFF)]).pc).toNat = 0xFF := by decide

theorem witness_PcAfterAStep :
    fetchInstr (mk [(0x10, 0x8C), (0x11, 0x80)] 0x10) = some (.jmp .relative 0x80) ∧
    step (mk [(0x10, 0x8C), (0x11, 0x80)] 0x10) = .next (mk [(0x10, 0x8C), (0x11, 0x80)] 0x92) :=
  ⟨rfl, next_of_nextOf (by decide)⟩

-- The instructions
theorem witness_NotComplementsAC : (0x0F : Byte).toNat / 16 = 0x0 := by decide

theorem witness_JmpGoesToTheTarget : (0x8C : Byte).toNat / 16 = 0x8 := by decide

theorem witness_JsrSavesTheReturnAddress : (0xC4 : Byte).toNat / 16 = 0xC := by decide

theorem witness_RtsReturnsToRS : (0xDF : Byte).toNat / 16 = 0xD := by decide

theorem witness_HltHalts : (0xF0 : Byte).toNat / 16 = 0xF := by decide

theorem witness_StaStoresAC : Mode.direct ≠ .immediate ∧ Mode.indirect ≠ .immediate ∧ Mode.relative ≠ .immediate := by
  decide

/-- A memory for operand values: the byte 0x80 at 0x40, and 0x40 at 0x20. -/
def valMem : Memory := [(0x20, 0x40), (0x40, 0x80)]

theorem witness_LdaLoadsTheValue :
    resolveValue .immediate 0x20 { mk valMem with pc := (mk valMem).pc + 2 } = 0x20 ∧
    resolveValue .indirect 0x20 { mk valMem with pc := (mk valMem).pc + 2 } = 0x80 ∧
    resolveValue .relative 0x3E { mk valMem with pc := (mk valMem).pc + 2 } = 0x80 := by decide

theorem witness_AddAddsTheValue :
    resolveValue .direct 0x40 { mk valMem 0 0x80 with pc := (mk valMem 0 0x80).pc + 2 } = 0x80 ∧
    (0x00 : Byte) = BitVec.ofNat 8 (((mk valMem 0 0x80).ac.toNat + (0x80 : Byte).toNat) % 256) := by decide

theorem witness_OrOrsTheValue :
    resolveValue .direct 0x40 { mk valMem 0 0x01 with pc := (mk valMem 0 0x01).pc + 2 } = 0x80 ∧
    (0x81 : Byte) = (mk valMem 0 0x01).ac ||| 0x80 := by decide

theorem witness_AndAndsTheValue :
    resolveValue .direct 0x40 { mk valMem 0 0xFF with pc := (mk valMem 0 0xFF).pc + 2 } = 0x80 ∧
    (0x80 : Byte) = (mk valMem 0 0xFF).ac &&& 0x80 := by decide

theorem witness_ConditionalJumpsTestTheirFlag :
    (fl (mk []) true true true true).c = true ∧ (fl (mk []) true true true true).n = true ∧
    (fl (mk []) true true true true).z = true ∧ (fl (mk []) true true true true).v = true ∧
    (mk []).c = false ∧ (mk []).n = false ∧ (mk []).z = false ∧ (mk []).v = false := by decide

-- The shared operations
theorem witness_SignedReadingOfAByte :
    (0 : Byte).toNat ≤ 127 ∧ (127 : Byte).toNat ≤ 127 ∧ 128 ≤ (128 : Byte).toNat ∧ 128 ≤ (255 : Byte).toNat := by decide

/-- PC 0x02 and the operand bytes 0x7F and 0x80, and a sum that wraps at each end of memory. -/
theorem witness_ValueOfEachMode :
    (((0x81 : Addr).toNat : Int) = (((mk [] 0x02).pc.toNat : Int) + signed8 0x7F) % 256) ∧
    (((0x82 : Addr).toNat : Int) = (((mk [] 0x02).pc.toNat : Int) + signed8 0x80) % 256) ∧
    (((0x05 : Addr).toNat : Int) = (((mk [] 0x00).pc.toNat : Int) + signed8 0x05) % 256) ∧
    (((0x01 : Addr).toNat : Int) = (((mk [] 0xFC).pc.toNat : Int) + signed8 0x05) % 256) := by decide

theorem witness_AddressAndTargetOfEachMode :
    (((0x82 : Addr).toNat : Int) = (((mk valMem 0x02).pc.toNat : Int) + signed8 0x80) % 256) ∧
    resolveAddr .direct 0xFF (mk valMem 0x02) = some 0xFF ∧
    resolveAddr .indirect 0x20 (mk valMem 0x02) = some 0x40 ∧
    resolveAddr .relative 0x80 (mk valMem 0x02) = some 0x82 := by decide

/-- Two memories, built by writes in different orders, that agree in every cell. -/
theorem witness_CanonicalMemoriesAreDeterminedByTheirCells :
    Memory.wf (Memory.write (Memory.write [] 3 7) 1 9) = true ∧
    Memory.wf (Memory.write (Memory.write [] 1 9) 3 7) = true ∧
    ∀ a : Addr, Memory.read (Memory.write (Memory.write [] 3 7) 1 9) a.toNat =
      Memory.read (Memory.write (Memory.write [] 1 9) 3 7) a.toNat := ⟨rfl, rfl, fun _ => rfl⟩

theorem witness_AddFlagsClosedForms : (0x00 : Byte) = addResult 0x80 0x80 ∧ (0x80 : Byte) = addResult 0x7F 0x01 := by
  decide

/-- The extreme sums on each side: 255 and 256 unsigned, 127, 128, -128 and -129 signed. -/
theorem witness_AddServesBothReadings :
    addCarry 0xFF 0x00 = false ∧ addCarry 0xFF 0x01 = true ∧
    addOverflow 0x7F 0x00 = false ∧ addOverflow 0x7F 0x01 = true ∧
    addOverflow 0x80 0x00 = false ∧ addOverflow 0x80 0xFF = true := by decide

-- Frames
theorem witness_FlagEffectsOfEveryInstruction :
    exec (.add .direct 0x40) (mk valMem 0 0x80) = .next (fl (mk valMem 2 0x00) true true false true) ∧
    resolveValue .direct 0x40 { mk valMem 0 0x80 with pc := (mk valMem 0 0x80).pc + 2 } = 0x80 ∧
    writesAC (.add .direct 0x40) = true ∧
    exec .hlt (mk []) = .next (mk [] 1) ∧ isAdd .hlt = false ∧ writesAC .hlt = false :=
  ⟨next_of_nextOf (by decide), by decide, rfl, next_of_nextOf (by decide), rfl, rfl⟩

theorem witness_WhatEveryInstructionLeavesUnchanged :
    exec (.sta .indirect 0x20) (mk valMem 0 0x07) = .next (mk [(0x20, 0x40), (0x40, 0x07)] 2 0x07) ∧
    storeAddr (.sta .indirect 0x20) (mk valMem 0 0x07) = some 0x40 ∧
    storeAddr (.sta .indirect 0x20) (mk valMem 0 0x07) ≠ some 0x3F ∧
    writesAC (.sta .indirect 0x20) = false ∧ isJsr (.sta .indirect 0x20) = false ∧
    isAdd (.sta .indirect 0x20) = false ∧
    exec .not (mk valMem) = .next (fl (mk valMem 1 0xFF) false false true false) ∧
    storeAddr .not (mk valMem) = none :=
  ⟨next_of_nextOf (by decide), by decide, by decide, rfl, rfl, rfl, next_of_nextOf (by decide), rfl⟩

theorem witness_ReturnSlotHasOneWriterAndOneReader :
    exec (.jsr .direct 0x10) (mk [] 0xFE) = .next (mk [] 0x10 0 0x00) ∧ Instr.jsr .direct 0x10 ≠ .rts ∧
    exec .not (mk [] 0 0 0x33) = .next (fl (mk [] 1 0xFF 0x33) false false true false) ∧ Instr.not ≠ .rts :=
  ⟨next_of_nextOf (by decide), by decide, next_of_nextOf (by decide), by decide⟩

-- Invariants
/-- A STA of 0x00 over a listed cell, and one of a byte into a cell that was not listed. -/
theorem witness_StepKeepsMemoryCanonical :
    Memory.wf (mk [(0, 0x14), (1, 0x40), (0x40, 0x80)]).mem = true ∧
    step (mk [(0, 0x14), (1, 0x40), (0x40, 0x80)]) = .next (mk [(0, 0x14), (1, 0x40)] 2) ∧
    Memory.wf (mk [(0, 0x14), (1, 0x40)] 0 0x07).mem = true ∧
    step (mk [(0, 0x14), (1, 0x40)] 0 0x07) = .next (mk [(0, 0x14), (1, 0x40), (0x40, 0x07)] 2 0x07) :=
  ⟨rfl, next_of_nextOf (by decide), rfl, next_of_nextOf (by decide)⟩

theorem witness_StepKeepsFlagsDescribingAC :
    fetchInstr (mk []) = some .not ∧ writesAC .not = true ∧
    step (mk []) = .next (fl (mk [] 1 0xFF) false false true false) ∧
    (mk []).n = (mk []).ac.getLsbD 7 ∧
    (fl (mk [(0, 0xD0)] 0 0x80 0x33) false false true false).n =
      (fl (mk [(0, 0xD0)] 0 0x80 0x33) false false true false).ac.getLsbD 7 ∧
    step (fl (mk [(0, 0xD0)] 0 0x80 0x33) false false true false) =
      .next (fl (mk [(0, 0xD0)] 0x33 0x80 0x33) false false true false) ∧
    FlagsDescribeAC (fl (mk [(0, 0xD0)] 0 0x80 0x33) false false true false) :=
  ⟨rfl, rfl, next_of_nextOf (by decide), rfl, rfl, next_of_nextOf (by decide), rfl, by decide⟩

/-- JSR 0x0A at 0x00, then the NOT at 0x0A. -/
theorem witness_ReturnSlotHoldsTheLastReturnAddress :
    Trace (mk leafMem) [(0x00, .jsr .direct 0x0A), (0x0A, .not)]
      (fl (mk leafMem 0x0B 0xFF 0x02) false false true false) :=
  trace_cons (t := mk leafMem 0x0A 0 0x02) rfl rfl (by decide)
    (trace_cons rfl rfl (by decide) (.nil _))

/-- The first clause: JSR, NOT, RTS. -/
theorem witness_ReturnGoesAfterTheLastCall_no_call_between :
    fetchInstr (mk leafMem) = some (.jsr .direct 0x0A) ∧ step (mk leafMem) = .next (mk leafMem 0x0A 0 0x02) ∧
    Trace (mk leafMem 0x0A 0 0x02) [(0x0A, .not)] (fl (mk leafMem 0x0B 0xFF 0x02) false false true false) ∧
    fetchInstr (fl (mk leafMem 0x0B 0xFF 0x02) false false true false) = some .rts ∧
    step (fl (mk leafMem 0x0B 0xFF 0x02) false false true false) =
      .next (fl (mk leafMem 0x02 0xFF 0x02) false false true false) ∧
    (∀ p ∈ [((0x0A : Addr), Instr.not)], isJsr p.2 = false) :=
  ⟨rfl, next_of_nextOf (by decide), trace_cons rfl rfl (by decide) (.nil _), rfl, next_of_nextOf (by decide),
    by decide⟩

/-- The second clause: the outer JSR at 0x00, a JMP, the inner JSR at 0x04, NOT, RTS. -/
theorem witness_ReturnGoesAfterTheLastCall_call_between :
    fetchInstr (mk callMem) = some (.jsr .direct 0x08) ∧ step (mk callMem) = .next (mk callMem 0x08 0 0x02) ∧
    Trace (mk callMem 0x08 0 0x02)
      ([((0x08 : Addr), Instr.jmp .direct 0x04)] ++ ((0x04 : Addr), Instr.jsr .direct 0x0A) :: [((0x0A : Addr), .not)])
      (fl (mk callMem 0x0B 0xFF 0x06) false false true false) ∧
    fetchInstr (fl (mk callMem 0x0B 0xFF 0x06) false false true false) = some .rts ∧
    step (fl (mk callMem 0x0B 0xFF 0x06) false false true false) =
      .next (fl (mk callMem 0x06 0xFF 0x06) false false true false) ∧
    isJsr (.jsr .direct 0x0A) = true ∧ (∀ p ∈ [((0x0A : Addr), Instr.not)], isJsr p.2 = false) :=
  ⟨rfl, next_of_nextOf (by decide),
    trace_cons (t := mk callMem 0x04 0 0x02) rfl rfl (by decide)
      (trace_cons (t := mk callMem 0x0A 0 0x06) rfl rfl (by decide)
        (trace_cons rfl rfl (by decide) (.nil _))),
    rfl, next_of_nextOf (by decide), rfl, by decide⟩

-- Accesses
theorem witness_MemoryAfterAStepIsItsAccessesApplied :
    step (mk [(0, 0x18), (1, 0x20), (0x20, 0x40)] 0 0x07) =
      .next (mk [(0, 0x18), (1, 0x20), (0x20, 0x40), (0x40, 0x07)] 2 0x07) ∧
    stepAccesses (mk [(0, 0x18), (1, 0x20), (0x20, 0x40)] 0 0x07) =
      [.read 0, .read 1, .read 0x20] ++ .write 0x40 0x07 :: [] :=
  ⟨next_of_nextOf (by decide), by decide⟩

/-- A JC that is not taken, and another operand byte. -/
theorem witness_StepDependsOnlyOnTheCellsItReads :
    (∀ a : Addr, Access.read a ∈ stepAccesses (mk [(0, 0x98), (1, 0x20)]) →
      Memory.read [(0, 0x98), (1, 0x77)] a.toNat = (mk [(0, 0x98), (1, 0x20)]).memRead a) ∧
    step (mk [(0, 0x98), (1, 0x20)]) = .next (mk [(0, 0x98), (1, 0x20)] 2) := by
  refine ⟨?_, next_of_nextOf (by decide)⟩
  intro a h
  have e : stepAccesses (mk [(0, 0x98), (1, 0x20)]) = [.read 0] := by decide
  rw [e] at h
  have : a = 0 := by simpa using h
  subst this; rfl

/-- STA Direct at 0x10 to 0x12, 0x13, 0x10 and 0x11. -/
theorem witness_StoreIsSeenByTheNextFetch :
    (∀ ea : Addr, ea ∈ [(0x12 : Addr), 0x13, 0x10, 0x11] →
      fetchInstr (mk [(0x10, 0x14), (0x11, ea)] 0x10 0xF0) = some (.sta .direct ea) ∧
      resolveAddr .direct ea { mk [(0x10, 0x14), (0x11, ea)] 0x10 0xF0 with pc := 0x10 + 2 } = some ea ∧
      (nextOf (step (mk [(0x10, 0x14), (0x11, ea)] 0x10 0xF0))).isSome = true) ∧
    (0x12 : Addr) = 0x10 + 2 ∧ (0x13 : Addr) = 0x10 + 3 ∧ (0x11 : Addr) = 0x10 + 1 := by decide

-- Runs
theorem witness_AGreaterBoundGivesTheSameRun :
    run 2 (mk [(1, 0xF0)]) = .halted (fl (mk [(1, 0xF0)] 2 0xFF) false false true false) ∧
    (∀ t, RunResult.halted (fl (mk [(1, 0xF0)] 2 0xFF) false false true false) ≠ .outOfFuel t) ∧
    run 1 (mk [(1, 0xF0)]) = .outOfFuel (fl (mk [(1, 0xF0)] 1 0xFF) false false true false) :=
  ⟨by decide, fun _ h => (nomatch h), by decide⟩

theorem witness_ARunEndsInOneWay :
    Halts (mk [(1, 0xF0)]) (fl (mk [(1, 0xF0)] 2 0xFF) false false true false) ∧
    FaultsWith (mk [(1, 0x20)]) (.unknownOpcode 1) := ⟨⟨2, by decide⟩, ⟨2, by decide⟩⟩

theorem witness_AHaltedRunEndsAtAHlt :
    Halts (mk [(1, 0xF0)]) (fl (mk [(1, 0xF0)] 2 0xFF) false false true false) := ⟨2, by decide⟩

theorem witness_AJumpToItselfNeverEnds :
    fetchInstr (mk [(0x10, 0x84), (0x11, 0x10)] 0x10) = some (.jmp .direct (mk [(0x10, 0x84), (0x11, 0x10)] 0x10).pc) ∧
    fetchInstr (mk [(0x10, 0x8C), (0x11, 0xFE)] 0x10) = some (.jmp .relative 0xFE) := by decide

theorem witness_ZeroedMemoryRunsAsNots : ∀ a : Addr, State.reset.memRead a = 0 := fun _ => rfl

/-- Both directions at the bound 2: NOT, of one byte, then LDA, of two. -/
theorem witness_ABoundCountsInstructions :
    run 2 (mk [(1, 0x40), (2, 0x05)]) = .outOfFuel (mk [(1, 0x40), (2, 0x05)] 3 0x05) ∧
    Trace (mk [(1, 0x40), (2, 0x05)]) [(0x00, .not), (0x01, .lda .immediate 0x05)]
      (mk [(1, 0x40), (2, 0x05)] 3 0x05) ∧
    (∀ p ∈ [((0x00 : Addr), Instr.not), ((0x01 : Addr), .lda .immediate 0x05)], p.2 ≠ .hlt) :=
  ⟨by decide,
    trace_cons (t := fl (mk [(1, 0x40), (2, 0x05)] 1 0xFF) false false true false) rfl rfl (by decide)
      (trace_cons rfl rfl (by decide) (.nil _)),
    by decide⟩

-- The assembler and the host's calls
theorem witness_ABinarySuffixIsReadAsAHexDigit :
    (∀ d ∈ ['1', '0', '1', '0'], d = '0' ∨ d = '1') ∧ ('b' = 'B' ∨ 'b' = 'b') ∧
    (∀ d ∈ ([] : List Char), d = '0' ∨ d = '1') ∧ ('B' = 'B' ∨ 'B' = 'b') := by simp

theorem witness_AnOperandLineAssemblesToItsInstruction :
    opcodeOf "STA".toList = some 0x1 ∧ lengthOfOpcode 0x1 = some 2 ∧
    parseValue [("PTR".toList, 0x31)] (stripSuffix "PTR,I".toList) = some 0x31 := by decide

theorem witness_ALabelStandsForTheAddressOfItsLine :
    linesOf ".CODE
 NOT
L: HLT
.ENDCODE".toList =
      [⟨1, none, some (.code none)⟩, ⟨2, none, some (.mnemonic "NOT".toList none)⟩] ++
        ⟨3, some "L".toList, some (.mnemonic "HLT".toList none)⟩ :: [⟨4, none, some .endCode⟩] ∧
    pass1 .fail ([⟨1, none, some (.code none)⟩, ⟨2, none, some (.mnemonic "NOT".toList none)⟩] ++
        ⟨3, some "L".toList, some (.mnemonic "HLT".toList none)⟩ :: [⟨4, none, some .endCode⟩]) .start [] =
      .ok [("L".toList, 0x01)] := ⟨by decide, rfl⟩

/-- The counter ends at 255, the greatest that the statement admits. -/
theorem witness_DataLinesEmitTheirBytesInOrder :
    List.Forall₂ (fun (l : Line) (b : Byte) => ∃ tok, l.stmt = some (.db tok) ∧ parseValue [] tok = some b)
      [⟨1, none, some (.db "7".toList)⟩, ⟨2, none, some (.db "0xFF".toList)⟩] [0x07, 0xFF] ∧
    (⟨0xFD, some .data⟩ : Cursor).sect.isSome = true ∧
    (⟨0xFD, some .data⟩ : Cursor).addr.toNat + [(0x07 : Byte), 0xFF].length ≤ 255 :=
  ⟨.cons ⟨_, rfl, by decide⟩ (.cons ⟨_, rfl, by decide⟩ .nil), rfl, by decide⟩

theorem witness_ADataByteAtTheLastAddress :
    (⟨1, none, some (.db "7".toList)⟩ : Line).stmt = some (.db "7".toList) ∧
    parseValue [] "7".toList = some 0x07 := by decide

theorem witness_AMnemonicBeforeAnySectionFails :
    linesOf "; no section
NOT".toList = [⟨2, none, some (.mnemonic "NOT".toList none)⟩] := by decide

theorem witness_LoadingTouchesMemoryAndSymbolsOnly :
    Instance.load .fail ".CODE
L: HLT
.ENDCODE".toList ⟨mk [(7, 1)] 3 4 5, []⟩ =
      .ok ⟨mk [(0, 0xF0), (7, 1)] 3 4 5, [("L".toList, 0)]⟩ ∧
    Memory.wf (mk [(7, 1)] 3 4 5).mem = true ∧
    boot .wrap ".CODE
L: HLT
.ENDCODE".toList = .ok ⟨mk [(0, 0xF0)], [("L".toList, 0)]⟩ := ⟨rfl, rfl, rfl⟩

end Sys2Proof.Tests
end

section
/-! PROOFS. The return slot RS: what `exec` answers for each instruction, how the state's operations commute with a
write of RS, and from both the proof that only JSR writes RS and only RTS reads it (10_state.md, R14). -/

namespace Sys2Proof.Machine

/-! ### What `exec` answers, instruction by instruction -/

@[simp] theorem exec_not (s : State) : exec .not s = .next (s.advance.loadAC (~~~ s.ac)) := rfl

/-- STA completes exactly where its mode has an address. -/
theorem exec_sta_eq_next {m : Mode} {o : Byte} {s t : State} : exec (.sta m o) s = .next t ↔
    ∃ ea, resolveAddr m o s.advance.advance = some ea ∧ s.advance.advance.memWrite ea s.ac = t := by
  cases m <;> simp [exec, execSta, resolveAddr]

@[simp] theorem exec_lda (m : Mode) (o : Byte) (s : State) :
    exec (.lda m o) s = .next (s.advance.advance.loadAC (resolveValue m o s.advance.advance)) := rfl

@[simp] theorem exec_add (m : Mode) (o : Byte) (s : State) :
    exec (.add m o) s = .next ((s.advance.advance.setCV
      (addCarry s.ac (resolveValue m o s.advance.advance))
      (addOverflow s.ac (resolveValue m o s.advance.advance))).loadAC
        (addResult s.ac (resolveValue m o s.advance.advance))) := rfl

@[simp] theorem exec_or (m : Mode) (o : Byte) (s : State) :
    exec (.or m o) s = .next (s.advance.advance.loadAC (s.ac ||| resolveValue m o s.advance.advance)) := rfl

@[simp] theorem exec_and (m : Mode) (o : Byte) (s : State) :
    exec (.and m o) s = .next (s.advance.advance.loadAC (s.ac &&& resolveValue m o s.advance.advance)) := rfl

@[simp] theorem exec_jmp (m : Mode) (o : Byte) (s : State) :
    exec (.jmp m o) s = .next (jumpTo m o s.advance.advance) := rfl

@[simp] theorem exec_jc (m : Mode) (o : Byte) (s : State) : exec (.jc m o) s = .next (jumpIf s.c m o s) := rfl

@[simp] theorem exec_jn (m : Mode) (o : Byte) (s : State) : exec (.jn m o) s = .next (jumpIf s.n m o s) := rfl

@[simp] theorem exec_jz (m : Mode) (o : Byte) (s : State) : exec (.jz m o) s = .next (jumpIf s.z m o s) := rfl

@[simp] theorem exec_jv (m : Mode) (o : Byte) (s : State) : exec (.jv m o) s = .next (jumpIf s.v m o s) := rfl

/-- JSR is a jump after which RS holds the address of the next instruction; the target does not depend on it. -/
@[simp] theorem exec_jsr (m : Mode) (o : Byte) (s : State) :
    exec (.jsr m o) s = .next ((jumpTo m o s.advance.advance).setRS (s.pc + 2)) := by
  have hpc : s.advance.advance.pc = s.pc + 2 := by rw [State.advance_advance]
  rw [← hpc]
  rfl

@[simp] theorem exec_rts (s : State) : exec .rts s = .next (s.setPC s.rs) := rfl

@[simp] theorem exec_hlt (s : State) : exec .hlt s = .next s.advance := rfl

/-! ### A write of RS commutes with the other operations -/

@[simp] theorem State.setRS_setRS (s : State) (q r : Addr) : (s.setRS q).setRS r = s.setRS r := rfl

@[simp] theorem State.advance_setRS (s : State) (r : Addr) : (s.setRS r).advance = s.advance.setRS r := rfl

@[simp] theorem State.loadAC_setRS (s : State) (r : Addr) (x : Byte) :
    (s.setRS r).loadAC x = (s.loadAC x).setRS r := rfl

@[simp] theorem State.setCV_setRS (s : State) (r : Addr) (p q : Bool) :
    (s.setRS r).setCV p q = (s.setCV p q).setRS r := rfl

@[simp] theorem State.memWrite_setRS (s : State) (r a : Addr) (x : Byte) :
    (s.setRS r).memWrite a x = (s.memWrite a x).setRS r := rfl

@[simp] theorem resolveAddr_setRS (m : Mode) (o : Byte) (s : State) (r : Addr) :
    resolveAddr m o (s.setRS r) = resolveAddr m o s := rfl

@[simp] theorem resolveValue_setRS (m : Mode) (o : Byte) (s : State) (r : Addr) :
    resolveValue m o (s.setRS r) = resolveValue m o s := rfl

@[simp] theorem jumpTo_setRS (m : Mode) (o : Byte) (s : State) (r : Addr) :
    jumpTo m o (s.setRS r) = (jumpTo m o s).setRS r := rfl

@[simp] theorem jumpIf_setRS (f : Bool) (m : Mode) (o : Byte) (s : State) (r : Addr) :
    jumpIf f m o (s.setRS r) = (jumpIf f m o s).setRS r := by
  cases f <;> rfl

/-! ### The writer and the reader of RS -/

/-- RS after an instruction that completes: JSR puts its return address there, every other instruction keeps it. -/
theorem exec_rs {i : Instr} {s t : State} (h : exec i s = .next t) :
    t.rs = if isJsr i then s.pc + 2 else s.rs := by
  cases i
  case sta =>
    obtain ⟨ea, -, rfl⟩ := exec_sta_eq_next.mp h
    rfl
  case jsr =>
    obtain rfl := Host.Outcome.next.inj ((exec_jsr _ _ _).symm.trans h)
    rfl
  all_goals
    obtain rfl := Host.Outcome.next.inj h
    simp [isJsr]

/-- STA that completes does the same with any other value in RS, which it keeps. -/
theorem exec_sta_setRS {m : Mode} {o : Byte} {s t : State} (r : Addr) (h : exec (.sta m o) s = .next t) :
    exec (.sta m o) (s.setRS r) = .next (t.setRS r) := by
  obtain ⟨ea, hea, rfl⟩ := exec_sta_eq_next.mp h
  exact exec_sta_eq_next.mpr ⟨ea, by simpa using hea, by simp⟩

/-- Noninterference: an instruction other than RTS does the same with any other value in RS; that value is kept,
but for JSR, which overwrites it with the same return address. -/
theorem exec_setRS {i : Instr} {s t : State} (r : Addr) (hi : i ≠ .rts) (h : exec i s = .next t) :
    exec i (s.setRS r) = .next (t.setRS (if isJsr i then t.rs else r)) := by
  cases i
  case rts => exact absurd rfl hi
  case sta => exact exec_sta_setRS r h
  case jsr =>
    obtain rfl := Host.Outcome.next.inj ((exec_jsr _ _ _).symm.trans h)
    simp [isJsr]
  all_goals
    obtain rfl := Host.Outcome.next.inj h
    simp [isJsr]

/-- Settles O36: `exec_rs` is the one writer, `exec_setRS` says that no instruction but RTS reads RS, and
`exec_rts` is what RTS does with it. -/
theorem returnSlotHasOneWriterAndOneReader : Obligations.ReturnSlotHasOneWriterAndOneReader :=
  ⟨fun _ _ _ h => exec_rs h, fun _ _ _ r hi h => exec_setRS r hi h, exec_rts⟩

end Sys2Proof.Machine
end

section
/-! PROOFS. What a cell reads after a write, of a memory and of the machine's state (20_memory.md, R32). -/

namespace Sys2Proof.Machine

/-- Writing 0x00 erases the cell's entry, and any other byte is inserted in its place: both read back alike. -/
@[simp] theorem Memory.read_write (m : Memory) (a b : Nat) (v : Byte) :
    Memory.read (Memory.write m a v) b = if b = a then v else Memory.read m b := by
  by_cases hv : v = Memory.unlisted
  · rw [Memory.write, if_pos hv]
    by_cases hb : b = a
    · rw [if_pos hb, hb, hv, Memory.read_erase_same]
    · rw [if_neg hb, Memory.read_erase_other m hb]
  · rw [Memory.write, if_neg hv, Memory.read_insert_erase]

/-- The state's accesses number the cells by `toNat`, which tells 8-bit addresses apart. -/
@[simp] theorem State.memRead_memWrite (s : State) (a b : Addr) (v : Byte) :
    (s.memWrite a v).memRead b = if b = a then v else s.memRead b := by
  simp only [State.memRead, State.memWrite_mem, Memory.read_write, BitVec.toNat_inj]

/-- Settles O30: `Memory.read_write` for every memory, `State.memRead_memWrite` for every state. -/
theorem memoryReadAfterWrite : Obligations.MemoryReadAfterWrite :=
  ⟨Memory.read_write, State.memRead_memWrite⟩

end Sys2Proof.Machine
end

section
/-! PROOFS. The fields of the opcode byte in plain arithmetic (30_encoding.md, R51 and R53). -/

namespace Sys2Proof

/-- The four mode numbers are all assigned, so that the number of a mode is the field it was read from (R55). -/
@[simp] theorem Mode.toBits_ofBits (m : BitVec 2) : (Mode.ofBits m).toBits = m := by
  revert m
  decide

/-- The shift by 4 leaves less than 16, so that the width of the field cuts nothing off. -/
theorem opcodeField_toNat (b : Byte) : (opcodeField b).toNat = b.toNat / 16 := by
  have hb : b.toNat < 256 := b.isLt
  rw [opcodeField, BitVec.extractLsb'_toNat, Nat.shiftRight_eq_div_pow]
  omega

/-- The shift by 2 leaves six bits, of which the width of the field keeps two. -/
theorem modeField_toBits_toNat (b : Byte) : (modeField b).toBits.toNat = b.toNat / 4 % 4 := by
  rw [modeField, Mode.toBits_ofBits, BitVec.extractLsb'_toNat, Nat.shiftRight_eq_div_pow]

/-- Settles O1, field by field. -/
theorem decodeReadsOpcodeAndMode : Obligations.DecodeReadsOpcodeAndMode :=
  fun b => ⟨opcodeField_toNat b, modeField_toBits_toNat b⟩

end Sys2Proof
end

section
/-! PROOFS. The signed reading of a byte, and operand resolution mode by mode (30_encoding.md, R61 and R64). -/

namespace Sys2Proof.Machine

/-! ### The signed reading -/

theorem signed8_of_le {b : Byte} (h : b.toNat ≤ 127) : signed8 b = b.toNat := if_pos h

theorem signed8_of_ge {b : Byte} (h : 128 ≤ b.toNat) : signed8 b = (b.toNat : Int) - 256 := if_neg (by omega)

theorem neg_128_le_signed8 (b : Byte) : -128 ≤ signed8 b := signed8_eq_toInt b ▸ BitVec.le_toInt b

theorem signed8_le_127 (b : Byte) : signed8 b ≤ 127 := by
  rw [signed8_eq_toInt]
  exact Int.le_sub_one_of_lt (BitVec.toInt_lt (x := b))

/-- Settles O27: both halves of the definition, and the range of the two's-complement reading. -/
theorem signedReadingOfAByte : Obligations.SignedReadingOfAByte :=
  fun b => ⟨signed8_of_le, signed8_of_ge, neg_128_le_signed8 b, signed8_le_127 b, signed8_eq_toInt b⟩

/-! ### The Relative sum -/

/-- The number of the Relative address is the sum of the integers reduced mod 256. -/
theorem relativeAddr_toNat (pc : Addr) (o : Byte) :
    ((relativeAddr pc o).toNat : Int) = ((pc.toNat : Int) + signed8 o) % 256 := by
  rw [relativeAddr, BitVec.toNat_ofInt]
  exact Int.toNat_of_nonneg (Int.emod_nonneg _ (by decide))

/-- The equation of the spec determines the Relative address. -/
theorem eq_relativeAddr_iff {a pc : Addr} {o : Byte} :
    a = relativeAddr pc o ↔ (a.toNat : Int) = ((pc.toNat : Int) + signed8 o) % 256 := by
  rw [← relativeAddr_toNat, Int.natCast_inj, BitVec.toNat_inj]

/-! ### The value of each mode, and the cells read for it -/

@[simp] theorem resolveValue_immediate (o : Byte) (s : State) : resolveValue .immediate o s = o := rfl

@[simp] theorem resolveValue_direct (o : Byte) (s : State) : resolveValue .direct o s = s.memRead o := rfl

@[simp] theorem resolveValue_indirect (o : Byte) (s : State) :
    resolveValue .indirect o s = s.memRead (s.memRead o) := rfl

@[simp] theorem resolveValue_relative (o : Byte) (s : State) :
    resolveValue .relative o s = s.memRead (relativeAddr s.pc o) := rfl

@[simp] theorem valueReads_immediate (o : Byte) (s : State) : valueReads .immediate o s = [] := rfl

@[simp] theorem valueReads_direct (o : Byte) (s : State) : valueReads .direct o s = [.read o] := rfl

@[simp] theorem valueReads_indirect (o : Byte) (s : State) :
    valueReads .indirect o s = [.read o, .read (s.memRead o)] := rfl

@[simp] theorem valueReads_relative (o : Byte) (s : State) :
    valueReads .relative o s = [.read (relativeAddr s.pc o)] := rfl

/-- Settles O28: the table row by row; in the Relative row the address is the one that the equation determines. -/
theorem valueOfEachMode : Obligations.ValueOfEachMode := by
  intro s o
  refine ⟨resolveValue_immediate o s, resolveValue_direct o s, resolveValue_indirect o s,
    valueReads_immediate o s, valueReads_direct o s, valueReads_indirect o s, fun a ha => ?_⟩
  obtain rfl := eq_relativeAddr_iff.mpr ha
  exact ⟨resolveValue_relative o s, valueReads_relative o s⟩

end Sys2Proof.Machine
end

section
/-! PROOFS. LDA: its opcode bytes, and its next state in plain arithmetic (41_load_store.md, R101). The first two
parts serve every instruction that is decoded from a range of bytes or that writes AC. -/

namespace Sys2Proof.Machine

/-! ### Decoding by the high half of the opcode byte -/

/-- The high half of the opcode byte, a number below 16, is the opcode field as a whole. -/
theorem opcodeField_eq_of_div {b : Byte} {k : Nat} (h : b.toNat / 16 = k) : opcodeField b = BitVec.ofNat 4 k := by
  rw [← h, ← opcodeField_toNat, BitVec.ofNat_toNat, BitVec.setWidth_eq]

/-- The row of the opcode map is chosen by the high half of the opcode byte (R53, R56). -/
theorem decodeBytes_of_div {b : Byte} {k : Nat} (o : Byte) (h : b.toNat / 16 = k) :
    decodeBytes b o = instrOfFields (BitVec.ofNat 4 k) (modeField b) o := by
  rw [decodeBytes, opcodeField_eq_of_div h]

/-! ### Writing AC together with N and Z -/

/-- Bit 7 of a byte, which N takes, says that the byte is 128 or more. -/
theorem getLsbD_seven_eq_decide (r : Byte) : r.getLsbD 7 = decide (128 ≤ r.toNat) :=
  (BitVec.msb_eq_getLsbD_last r).symm.trans (BitVec.msb_eq_decide r)

/-- The whole state after AC is written: three fields change. -/
theorem State.loadAC_eq (s : State) (r : Byte) :
    s.loadAC r = { s with ac := r, n := decide (128 ≤ r.toNat), z := r == 0 } := by
  rw [← getLsbD_seven_eq_decide]
  rfl

/-! ### LDA -/

/-- LDA emits its opcode byte, fixed by the mode alone, and then the operand byte. -/
theorem encode_lda {m : Mode} {b : Byte} (o : Byte) (h : encodeFields 0x4 m = b) : encode (.lda m o) = [b, o] :=
  congrArg (· :: [o]) h

/-- The whole next state of LDA: the fetch moved PC past the operand byte, and AC takes the value resolved there. -/
theorem exec_lda_eq_next {m : Mode} {o v : Byte} {s : State}
    (h : resolveValue m o { s with pc := s.pc + 2 } = v) :
    exec (.lda m o) s =
      .next { s with pc := s.pc + 2, ac := v, n := decide (128 ≤ v.toNat), z := v == 0 } := by
  rw [exec_lda, State.advance_advance, h, State.loadAC_eq]

/-- Settles O18: `decodeBytes_of_div` at the opcode 0x4, `encode_lda` mode by mode, and `exec_lda_eq_next`; the
mnemonic and the signal are entries of their tables. -/
theorem ldaLoadsTheValue : Obligations.LdaLoadsTheValue :=
  ⟨fun _ o hb => decodeBytes_of_div o hb,
    fun o => ⟨encode_lda o (by decide), encode_lda o (by decide), encode_lda o (by decide), encode_lda o (by decide)⟩,
    by decide, fun _ _ => rfl, fun _ _ _ _ hv => exec_lda_eq_next hv⟩

end Sys2Proof.Machine
end

section
/-! PROOFS. OR and AND: their opcode bytes, and their next states in plain arithmetic (42_alu.md, R107 and R108).
The first part serves every two-byte instruction, and every one of them that ends in a write of AC. -/

namespace Sys2Proof.Machine

/-! ### A two-byte instruction, and one that writes AC -/

/-- An instruction with an operand byte emits its opcode byte and then that byte (R50, R52). -/
theorem encode_of_operand {i : Instr} {b o : Byte} (ho : i.operand = some o)
    (hb : encodeFields i.opcode i.mode = b) : encode i = [b, o] := by
  rw [encode, ho, hb]
  rfl

/-- The whole state after the fetch of two bytes and a write of AC: PC is past the operand byte, and N and Z
describe the new AC. -/
theorem State.loadAC_advance_advance (s : State) (r : Byte) :
    s.advance.advance.loadAC r =
      { s with pc := s.pc + 2, ac := r, n := decide (128 ≤ r.toNat), z := r == 0 } := by
  rw [State.loadAC_eq, State.advance_advance]

/-! ### OR -/

/-- OR emits its opcode byte, fixed by the mode alone, and then the operand byte. -/
theorem encode_or {m : Mode} {b : Byte} (o : Byte) (h : encodeFields 0x6 m = b) : encode (.or m o) = [b, o] :=
  encode_of_operand rfl h

/-- The whole next state of OR, from the value resolved past the operand byte. -/
theorem exec_or_eq_next {m : Mode} {o v r : Byte} {s : State}
    (hv : resolveValue m o { s with pc := s.pc + 2 } = v) (hr : r = s.ac ||| v) :
    exec (.or m o) s =
      .next { s with pc := s.pc + 2, ac := r, n := decide (128 ≤ r.toNat), z := r == 0 } := by
  rw [← State.advance_advance] at hv
  rw [exec_or, hv, ← hr, State.loadAC_advance_advance]

/-- Settles O20: `decodeBytes_of_div` at the opcode 0x6, `encode_or` mode by mode, and `exec_or_eq_next`; the
mnemonic and the signal are entries of their tables. -/
theorem orOrsTheValue : Obligations.OrOrsTheValue :=
  ⟨fun _ o hb => decodeBytes_of_div o hb,
    fun o => ⟨encode_or o (by decide), encode_or o (by decide), encode_or o (by decide), encode_or o (by decide)⟩,
    by decide, fun _ _ => rfl, fun _ _ _ _ _ hv hr => exec_or_eq_next hv hr⟩

/-! ### AND -/

/-- AND emits its opcode byte, fixed by the mode alone, and then the operand byte. -/
theorem encode_and {m : Mode} {b : Byte} (o : Byte) (h : encodeFields 0x7 m = b) : encode (.and m o) = [b, o] :=
  encode_of_operand rfl h

/-- The whole next state of AND, from the value resolved past the operand byte. -/
theorem exec_and_eq_next {m : Mode} {o v r : Byte} {s : State}
    (hv : resolveValue m o { s with pc := s.pc + 2 } = v) (hr : r = s.ac &&& v) :
    exec (.and m o) s =
      .next { s with pc := s.pc + 2, ac := r, n := decide (128 ≤ r.toNat), z := r == 0 } := by
  rw [← State.advance_advance] at hv
  rw [exec_and, hv, ← hr, State.loadAC_advance_advance]

/-- Settles O21: `decodeBytes_of_div` at the opcode 0x7, `encode_and` mode by mode, and `exec_and_eq_next`; the
mnemonic and the signal are entries of their tables. -/
theorem andAndsTheValue : Obligations.AndAndsTheValue :=
  ⟨fun _ o hb => decodeBytes_of_div o hb,
    fun o => ⟨encode_and o (by decide), encode_and o (by decide), encode_and o (by decide), encode_and o (by decide)⟩,
    by decide, fun _ _ => rfl, fun _ _ _ _ _ hv hr => exec_and_eq_next hv hr⟩

end Sys2Proof.Machine
end

section
/-! PROOFS. RTS: one byte whose mode is ignored, and a next state that differs in PC alone (43_control.md, R122).
The first part serves every instruction that has no operand byte. -/

namespace Sys2Proof.Machine

/-- An instruction without an operand byte emits its opcode byte alone (R50). -/
theorem encode_of_no_operand {i : Instr} {b : Byte} (ho : i.operand = none)
    (hb : encodeFields i.opcode i.mode = b) : encode i = [b] := by
  rw [encode, ho, hb]
  rfl

/-- The high half 0xD alone makes an opcode byte RTS: neither the mode nor the byte after it is looked at (R60). -/
theorem decodeBytes_rts {b : Byte} (o : Byte) (h : b.toNat / 16 = 0xD) : decodeBytes b o = some .rts :=
  decodeBytes_of_div o h

/-- RTS has no mode of its own, and emits mode 0 (R55). -/
theorem encode_rts : encode .rts = [0xD0] :=
  encode_of_no_operand rfl (by decide)

/-- The whole next state of RTS: PC takes RS, and every other field, RS among them, is as it was. -/
theorem exec_rts_eq_next (s : State) : exec .rts s = .next { s with pc := s.rs } := by
  rw [exec_rts, State.setPC]

/-- Settles O25: `decodeBytes_rts` for every mode, `encode_rts`, and `exec_rts_eq_next`; the mnemonic and the signal
are entries of their tables. -/
theorem rtsReturnsToRS : Obligations.RtsReturnsToRS :=
  ⟨fun _ o hb => decodeBytes_rts o hb, encode_rts, by decide, rfl, exec_rts_eq_next⟩

end Sys2Proof.Machine
end

section
/-! PROOFS. The encoding: what the opcode map and the decoder answer, case by case, and from that the round trip in
both directions, the classification of the opcode bytes and the lengths (30_encoding.md). -/

namespace Sys2Proof

/-! ### The fields that the encoder writes -/

/-- A mode is known by its number. -/
theorem Mode.toBits_inj {m m' : Mode} : m.toBits = m'.toBits ↔ m = m' := by
  cases m <;> cases m' <;> decide

theorem Mode.toBits_toNat_eq_zero {m : Mode} : m.toBits.toNat = 0 ↔ m = .immediate := by
  cases m <;> decide

/-- The two fields of an opcode byte do not overlap, and bits 1:0 stay zero (R68). -/
theorem encodeFields_toNat (op : BitVec 4) (m : Mode) :
    (encodeFields op m).toNat = op.toNat * 16 + m.toBits.toNat * 4 := by
  revert op
  cases m <;> decide

theorem opcodeField_encodeFields (op : BitVec 4) (m : Mode) : opcodeField (encodeFields op m) = op :=
  (Laws.EncodedShape.fields op m).1

theorem modeField_encodeFields (op : BitVec 4) (m : Mode) : modeField (encodeFields op m) = m :=
  (Laws.EncodedShape.fields op m).2.1

/-- Settles O2, field by field. -/
theorem fieldsEncodeThenDecode : Obligations.FieldsEncodeThenDecode :=
  fun op m => ⟨Prod.ext (opcodeField_encodeFields op m) (modeField_encodeFields op m), encodeFields_toNat op m⟩

/-! ### The opcode map -/

/-- The map is left undefined at two rows (R58). -/
theorem instrOfFields_eq_none {op : BitVec 4} {m : Mode} {o : Byte} :
    instrOfFields op m o = none ↔ op.toNat = 0x2 ∨ op.toNat = 0x3 := by
  have hop : op.toNat < 16 := op.isLt
  unfold instrOfFields
  split <;> simp_all
  omega

/-- What the map answers is the instruction of that opcode number, with the mode and the operand byte put in its
place where it has them. -/
theorem instrOfFields_eq_some {op : BitVec 4} {m : Mode} {o : Byte} {i : Instr} (h : instrOfFields op m o = some i) :
    i.opcode = op ∧ (i.size = 1 ∧ i.operand = none ∨ i.size = 2 ∧ i.mode = m ∧ i.operand = some o) := by
  unfold instrOfFields at h
  split at h <;> simp only [reduceCtorEq, Option.some.injEq] at h
  all_goals
    subst h
    next hop => exact ⟨BitVec.eq_of_toNat_eq hop.symm, by simp [Instr.size, encode, Instr.operand, Instr.mode]⟩

/-- The map leads from the fields of an instruction back to it; the operand byte of a one-byte instruction is not
looked at. -/
theorem instrOfFields_fields (i : Instr) (o : Byte) :
    instrOfFields i.opcode i.mode (i.operand.getD o) = some i := by
  cases i <;> rfl

/-- The length that the opcode number fixes is the number of bytes of the encoding (R50, R57). -/
theorem lengthOfOpcode_opcode (i : Instr) : lengthOfOpcode i.opcode = some i.size := by
  cases i <;> rfl

theorem lengthOfOpcode_eq_none {op : BitVec 4} : lengthOfOpcode op = none ↔ op.toNat ∈ [0x2, 0x3] := by
  revert op
  decide

theorem lengthOfOpcode_eq_one {op : BitVec 4} : lengthOfOpcode op = some 1 ↔ op.toNat ∈ [0x0, 0xD, 0xF] := by
  revert op
  decide

theorem lengthOfOpcode_eq_two {op : BitVec 4} :
    lengthOfOpcode op = some 2 ↔ op.toNat ∉ [0x0, 0x2, 0x3, 0xD, 0xF] := by
  revert op
  decide

/-- There is no length but none, one and two (R57). -/
theorem lengthOfOpcode_cases (op : BitVec 4) :
    lengthOfOpcode op = none ∨ lengthOfOpcode op = some 1 ∨ lengthOfOpcode op = some 2 := by
  revert op
  decide

/-! ### The instruction of an opcode byte -/

theorem decodeBytes_eq_none {b o : Byte} : decodeBytes b o = none ↔ b.toNat / 16 = 0x2 ∨ b.toNat / 16 = 0x3 := by
  rw [decodeBytes, instrOfFields_eq_none, opcodeField_toNat]

/-- What an instruction has from the bytes it was read from: its opcode number is the high half of the opcode byte,
and where it is two bytes long the mode and the operand byte are its own. -/
theorem decodeBytes_eq_some {b o : Byte} {i : Instr} (h : decodeBytes b o = some i) :
    i.opcode.toNat = b.toNat / 16 ∧
      (i.size = 1 ∧ i.operand = none ∨ i.size = 2 ∧ i.mode = modeField b ∧ i.operand = some o) := by
  obtain ⟨hop, hshape⟩ := instrOfFields_eq_some h
  exact ⟨by rw [hop, opcodeField_toNat], hshape⟩

/-- The length of a decoded instruction is the one that its opcode byte fixes. -/
theorem size_of_decodeBytes {b o : Byte} {i : Instr} (h : decodeBytes b o = some i) :
    lengthOfOpcode (opcodeField b) = some i.size := by
  rw [← (instrOfFields_eq_some h).1, lengthOfOpcode_opcode]

/-- An opcode that has a length names an instruction, of that length and with the fields of the two bytes. -/
theorem exists_decodeBytes_of_length {b : Byte} {n : Nat} (o : Byte) (h : lengthOfOpcode (opcodeField b) = some n) :
    ∃ i, decodeBytes b o = some i ∧ i.size = n := by
  cases hi : decodeBytes b o with
  | none =>
    rw [decodeBytes_eq_none, ← opcodeField_toNat] at hi
    rw [lengthOfOpcode_eq_none.mpr (by simpa using hi)] at h
    exact nomatch h
  | some i =>
    exact ⟨i, rfl, Option.some.inj ((size_of_decodeBytes hi).symm.trans h)⟩

/-- The fields that the encoder writes decode to the instruction, whatever follows a one-byte one. -/
theorem decodeBytes_encodeFields (i : Instr) (o : Byte) :
    decodeBytes (encodeFields i.opcode i.mode) (i.operand.getD o) = some i := by
  rw [decodeBytes, opcodeField_encodeFields, modeField_encodeFields, instrOfFields_fields]

/-! ### The decoder over a sequence of bytes -/

theorem decode_of_length_none {b : Byte} (rest : List Byte) (h : lengthOfOpcode (opcodeField b) = none) :
    decode (b :: rest) = .error .unknownOpcode := by
  simp [decode, h]

theorem decode_of_length_one {b : Byte} {i : Instr} (rest : List Byte)
    (h : lengthOfOpcode (opcodeField b) = some 1) (hi : decodeBytes b 0 = some i) :
    decode (b :: rest) = .ok (i, rest) := by
  simp only [decode, h, hi]

theorem decode_of_length_two {b o : Byte} {i : Instr} (rest : List Byte)
    (h : lengthOfOpcode (opcodeField b) = some 2) (hi : decodeBytes b o = some i) :
    decode (b :: o :: rest) = .ok (i, rest) := by
  simp [decode, h, hi]

/-- All that the decoder can answer with success: a one-byte or a two-byte instruction at the front. -/
theorem decode_eq_ok {bytes rest : List Byte} {i : Instr} (h : decode bytes = .ok (i, rest)) :
    (∃ b, bytes = b :: rest ∧ lengthOfOpcode (opcodeField b) = some 1 ∧ decodeBytes b 0 = some i) ∨
    (∃ b o, bytes = b :: o :: rest ∧ lengthOfOpcode (opcodeField b) = some 2 ∧ decodeBytes b o = some i) := by
  cases bytes with
  | nil => simp [decode] at h
  | cons b tl =>
    obtain hn | h1 | h2 := lengthOfOpcode_cases (opcodeField b)
    · simp [decode_of_length_none tl hn] at h
    · obtain ⟨j, hj, -⟩ := exists_decodeBytes_of_length 0 h1
      rw [decode_of_length_one tl h1 hj] at h
      obtain ⟨rfl, rfl⟩ := Prod.mk.inj (Except.ok.inj h)
      exact .inl ⟨b, rfl, h1, hj⟩
    · cases tl with
      | nil => simp [decode, h2] at h
      | cons o tl =>
        obtain ⟨j, hj, -⟩ := exists_decodeBytes_of_length o h2
        rw [decode_of_length_two tl h2 hj] at h
        obtain ⟨rfl, rfl⟩ := Prod.mk.inj (Except.ok.inj h)
        exact .inr ⟨b, o, rfl, h2, hj⟩

/-- The length of an instruction with or without an operand byte. -/
theorem Instr.size_eq (i : Instr) : i.size = i.operand.toList.length + 1 := rfl

/-- Settles O3: the encoder's opcode byte has the length of the instruction, so that the decoder takes the operand
byte exactly where the encoder wrote one, and reads back the fields that were written. -/
theorem decodeOfEncodeIsTheInstruction : Obligations.DecodeOfEncodeIsTheInstruction := by
  intro i rest
  have hlen : lengthOfOpcode (opcodeField (encodeFields i.opcode i.mode)) = some i.size := by
    rw [opcodeField_encodeFields, lengthOfOpcode_opcode]
  have hdec := decodeBytes_encodeFields i 0
  rw [Instr.size_eq] at hlen
  rw [encode]
  cases ho : i.operand with
  | none =>
    rw [ho] at hlen hdec
    exact decode_of_length_one rest hlen hdec
  | some o =>
    rw [ho] at hlen hdec
    exact decode_of_length_two rest hlen hdec

/-- Settles O4. The opcode number survives both ways, so that the upper half of the byte does; the mode survives
where there is an operand byte, and then the upper six bits do. -/
theorem encodeOfDecodeDiffersOnlyInIgnoredBits : Obligations.EncodeOfDecodeDiffersOnlyInIgnoredBits := by
  intro bytes rest i h
  obtain ⟨b, rfl, hlen, hi⟩ | ⟨b, o, rfl, hlen, hi⟩ := decode_eq_ok h
  all_goals
    obtain ⟨hop, hshape⟩ := decodeBytes_eq_some hi
    have hsize := (size_of_decodeBytes hi).symm.trans hlen
    rw [Option.some.injEq] at hsize
    have hb' := encodeFields_toNat i.opcode i.mode
    have hm : i.mode.toBits.toNat < 4 := i.mode.toBits.isLt
  · obtain ⟨-, hopnd⟩ := hshape.resolve_right (by omega)
    exact ⟨b, encodeFields i.opcode i.mode, rest, rfl, by simp [encode, hopnd], by omega, by omega, by omega⟩
  · obtain ⟨-, hmode, hopnd⟩ := hshape.resolve_left (by omega)
    have hbits := modeField_toBits_toNat b
    rw [← hmode] at hbits
    exact ⟨b, encodeFields i.opcode i.mode, o :: rest, rfl, by simp [encode, hopnd], by omega, by omega, by omega⟩

/-- Settles O8: the three sets of opcode numbers, and the decoder's equation for each. -/
theorem lengthIsFixedByOpcode : Obligations.LengthIsFixedByOpcode := by
  refine ⟨fun b o rest hb => ?_, fun b o rest hb => ?_, fun b o rest hb => ?_⟩ <;> rw [← opcodeField_toNat] at hb
  · have hlen := lengthOfOpcode_eq_none.mpr hb
    exact ⟨hlen, decode_of_length_none _ hlen⟩
  · have hlen := lengthOfOpcode_eq_one.mpr hb
    obtain ⟨i, hi, hsize⟩ := exists_decodeBytes_of_length 0 hlen
    exact ⟨hlen, i, decode_of_length_one _ hlen hi, hsize⟩
  · have hlen := lengthOfOpcode_eq_two.mpr hb
    obtain ⟨i, hi, hsize⟩ := exists_decodeBytes_of_length o hlen
    exact ⟨hlen, i, decode_of_length_two _ hlen hi, hsize⟩

/-- Settles O5: each sample is one row of the opcode map. -/
theorem sampleWordsDecode : Obligations.SampleWordsDecode := by
  unfold Obligations.SampleWordsDecode
  decide

/-! ### What the decoder ignores -/

/-- The operand byte put in the place of the one that an instruction has. -/
def Instr.withOperand (o : Byte) : Instr → Instr
  | .sta m _ => .sta m o
  | .lda m _ => .lda m o
  | .add m _ => .add m o
  | .or m _ => .or m o
  | .and m _ => .and m o
  | .jmp m _ => .jmp m o
  | .jc m _ => .jc m o
  | .jn m _ => .jn m o
  | .jz m _ => .jz m o
  | .jsr m _ => .jsr m o
  | .jv m _ => .jv m o
  | .not => .not
  | .rts => .rts
  | .hlt => .hlt

/-- In each row of the opcode map the operand byte is put in its place or dropped. -/
theorem instrOfFields_withOperand (op : BitVec 4) (m : Mode) (o o' : Byte) :
    instrOfFields op m o' = (instrOfFields op m o).map (Instr.withOperand o') := by
  unfold instrOfFields
  split <;> rfl

/-- Another operand byte changes the operand of the instruction and nothing else. -/
theorem decodeBytes_withOperand {b o : Byte} {i : Instr} (o' : Byte) (h : decodeBytes b o = some i) :
    decodeBytes b o' = some (i.withOperand o') := by
  rw [decodeBytes] at h
  rw [decodeBytes, instrOfFields_withOperand _ _ o, h, Option.map_some]

/-- The mode and the operand byte of a one-byte instruction are ignored (R60). -/
theorem instrOfFields_of_length_one {op : BitVec 4} (h : lengthOfOpcode op = some 1) (m m' : Mode) (o o' : Byte) :
    instrOfFields op m o = instrOfFields op m' o' := by
  rw [lengthOfOpcode_eq_one] at h
  simp only [List.mem_cons, List.not_mem_nil, or_false] at h
  obtain h | h | h := h <;> simp [instrOfFields, h]

theorem decodeBytes_of_length_one {b b' : Byte} (hb : opcodeField b = opcodeField b')
    (h : lengthOfOpcode (opcodeField b) = some 1) (o o' : Byte) : decodeBytes b o = decodeBytes b' o' := by
  rw [decodeBytes, decodeBytes, ← hb]
  exact instrOfFields_of_length_one h _ _ _ _

/-- Bytes that differ only in bits 1:0 have the same two fields. -/
theorem decodeBytes_of_div_four {b b' : Byte} (o : Byte) (h : b.toNat / 4 = b'.toNat / 4) :
    decodeBytes b o = decodeBytes b' o := by
  have hop : opcodeField b = opcodeField b' := by
    apply BitVec.eq_of_toNat_eq
    rw [opcodeField_toNat, opcodeField_toNat]
    omega
  have hmode : modeField b = modeField b' := by
    apply Mode.toBits_inj.mp
    apply BitVec.eq_of_toNat_eq
    rw [modeField_toBits_toNat, modeField_toBits_toNat, h]
  rw [decodeBytes, decodeBytes, hop, hmode]

/-- Settles O7: `decodeBytes_of_div_four` for bits 1:0, `decodeBytes_of_length_one` for the mode and what follows. -/
theorem ignoredBitsDoNotMatter : Obligations.IgnoredBitsDoNotMatter := by
  refine ⟨fun b b' o h => decodeBytes_of_div_four o h, fun b b' o o' h hmem => ?_⟩
  have hop : opcodeField b = opcodeField b' := by
    apply BitVec.eq_of_toNat_eq
    rw [opcodeField_toNat, opcodeField_toNat, h]
  rw [← opcodeField_toNat] at hmem
  exact decodeBytes_of_length_one hop (lengthOfOpcode_eq_one.mpr hmem) o o'

/-! ### The classification of the opcode bytes -/

theorem decodeBytes_eq_none_iff_range {b o : Byte} :
    decodeBytes b o = none ↔ 0x20 ≤ b.toNat ∧ b.toNat ≤ 0x3F := by
  rw [decodeBytes_eq_none]
  omega

/-- STA with Immediate mode, whose operand is the byte that followed. -/
theorem decodeBytes_eq_sta_immediate {b o o' : Byte} :
    decodeBytes b o = some (.sta .immediate o') ↔ o = o' ∧ 0x10 ≤ b.toNat ∧ b.toNat ≤ 0x13 := by
  have hmode : modeField b = .immediate ↔ b.toNat / 4 % 4 = 0 := by
    rw [← Mode.toBits_toNat_eq_zero, modeField_toBits_toNat]
  constructor
  · intro h
    obtain ⟨hop, ⟨-, ho⟩ | ⟨-, hm, ho⟩⟩ := decodeBytes_eq_some h
    · exact nomatch ho
    · have hop' : 1 = b.toNat / 16 := hop
      have hm' := hmode.mp hm.symm
      exact ⟨(Option.some.inj ho).symm, by omega, by omega⟩
  · rintro ⟨rfl, hlo, hhi⟩
    rw [Machine.decodeBytes_of_div o (show b.toNat / 16 = 1 by omega), hmode.mpr (by omega)]
    rfl

theorem decodeBytes_eq_hlt {b o : Byte} : decodeBytes b o = some .hlt ↔ 0xF0 ≤ b.toNat := by
  have hb : b.toNat < 256 := b.isLt
  constructor
  · intro h
    have hop : 15 = b.toNat / 16 := (decodeBytes_eq_some h).1
    omega
  · intro h
    exact Machine.decodeBytes_of_div o (show b.toNat / 16 = 15 by omega)

/-- STA with Immediate mode is the one instruction that is not well formed (R59). -/
theorem Instr.wellFormed_eq_false {i : Instr} : i.wellFormed = false ↔ ∃ o, i = .sta .immediate o := by
  cases i <;> simp [Instr.wellFormed]

/-- An opcode byte names a well-formed instruction where it is none of the 36 others. -/
theorem exists_wellFormed_decodeBytes {b o : Byte} :
    (∃ i, decodeBytes b o = some i ∧ i.wellFormed = true) ↔
      (b.toNat ≤ 0x0F ∨ (0x14 ≤ b.toNat ∧ b.toNat ≤ 0x1F) ∨ 0x40 ≤ b.toNat) := by
  have hnone := decodeBytes_eq_none_iff_range (b := b) (o := o)
  have hsta := decodeBytes_eq_sta_immediate (b := b) (o := o) (o' := o)
  constructor
  · rintro ⟨i, hi, hwf⟩
    have h1 : ¬ (0x20 ≤ b.toNat ∧ b.toNat ≤ 0x3F) := by simp [← hnone, hi]
    have h2 : ¬ (0x10 ≤ b.toNat ∧ b.toNat ≤ 0x13) := by
      intro h
      obtain rfl := Option.some.inj (hi.symm.trans (hsta.mpr ⟨rfl, h⟩))
      exact nomatch hwf
    omega
  · intro h
    obtain ⟨i, hi⟩ := Option.ne_none_iff_exists'.mp (mt hnone.mp (by omega))
    refine ⟨i, hi, ?_⟩
    by_contra hwf
    obtain ⟨o', rfl⟩ := Instr.wellFormed_eq_false.mp (Bool.eq_false_of_not_eq_true hwf)
    have := (decodeBytes_eq_sta_immediate.mp hi).2
    omega

/-- How many of the 256 bytes lie in the three ranges: 28 below 0x40, and all from there on. -/
theorem countP_wellFormed_ranges :
    (List.range (64 + 192)).countP (fun k => decide (k ≤ 0x0F ∨ (0x14 ≤ k ∧ k ≤ 0x1F) ∨ 0x40 ≤ k)) = 220 := by
  have hlow : (List.range 64).countP (fun k => decide (k ≤ 0x0F ∨ (0x14 ≤ k ∧ k ≤ 0x1F) ∨ 0x40 ≤ k)) = 28 := by
    decide
  rw [List.range_add, List.countP_append, hlow, List.countP_eq_length.mpr]
  · simp
  · intro k hk
    obtain ⟨j, -, rfl⟩ := List.mem_map.mp hk
    exact decide_eq_true (by omega)

/-- Settles O6. The count is that of the ranges, by `exists_wellFormed_decodeBytes`. -/
theorem opcodeByteClassification : Obligations.OpcodeByteClassification := by
  refine ⟨fun b o => decodeBytes_eq_none_iff_range, fun b o => ?_, fun b o => exists_wellFormed_decodeBytes, ?_⟩
  · simpa using decodeBytes_eq_sta_immediate (b := b) (o := o) (o' := o)
  · rw [← countP_wellFormed_ranges]
    refine List.countP_congr fun k hk => ?_
    have hk' : (BitVec.ofNat 8 k).toNat = k := Nat.mod_eq_of_lt (List.mem_range.mp hk)
    rw [Option.any_eq_true, exists_wellFormed_decodeBytes, hk', decide_eq_true_iff]

end Sys2Proof
end

section
/-! PROOFS. ADD: its flags in closed form, what its eight bits say in both readings, and its next state
(42_alu.md, R106, R110 and R111). -/

namespace Sys2Proof.Machine

/-! ### The sum, the carry and the overflow in plain arithmetic -/

/-- The sum is reduced to eight bits (R109). -/
theorem addResult_toNat (a b : Byte) : (addResult a b).toNat = (a.toNat + b.toNat) % 256 :=
  BitVec.toNat_ofNat ..

theorem addCarry_eq_true {a b : Byte} : addCarry a b = true ↔ 255 < a.toNat + b.toNat :=
  decide_eq_true_iff

/-- The sign bits of R17 as comparisons with 128. -/
theorem addOverflow_eq_decide (a b : Byte) :
    addOverflow a b = decide ((128 ≤ a.toNat ↔ 128 ≤ b.toNat) ∧
      ¬ (128 ≤ (addResult a b).toNat ↔ 128 ≤ a.toNat)) := by
  simp only [addOverflow, getLsbD_seven_eq_decide]
  rw [Bool.eq_iff_iff]
  simp

theorem addOverflow_eq_true {a b : Byte} :
    addOverflow a b = true ↔
      (128 ≤ a.toNat ↔ 128 ≤ b.toNat) ∧ ¬ (128 ≤ (addResult a b).toNat ↔ 128 ≤ a.toNat) := by
  rw [addOverflow_eq_decide, decide_eq_true_iff]

/-- The two halves of the signed reading, as one disjunction for arithmetic. -/
theorem signed8_cases (b : Byte) :
    (b.toNat ≤ 127 ∧ signed8 b = b.toNat) ∨ (128 ≤ b.toNat ∧ signed8 b = (b.toNat : Int) - 256) := by
  obtain h | h := Nat.lt_or_ge 127 b.toNat
  · exact .inr ⟨h, signed8_of_ge h⟩
  · exact .inl ⟨h, signed8_of_le h⟩

/-! ### The closed forms of the flags -/

/-- With a carry the result lost 256, and so is below either operand; without one it is below neither. -/
theorem addCarry_iff_lt (a b : Byte) :
    (addCarry a b = true ↔ (addResult a b).toNat < a.toNat) ∧
      (addCarry a b = true ↔ (addResult a b).toNat < b.toNat) := by
  have ha : a.toNat < 256 := a.isLt
  have hb : b.toNat < 256 := b.isLt
  rw [addCarry_eq_true, addResult_toNat]
  omega

/-- V is set exactly where the exact signed sum is no signed byte (R110). -/
theorem addOverflow_iff_out_of_range (a b : Byte) :
    addOverflow a b = true ↔ signed8 a + signed8 b < -128 ∨ 127 < signed8 a + signed8 b := by
  have ha : a.toNat < 256 := a.isLt
  have hb : b.toNat < 256 := b.isLt
  rw [addOverflow_eq_true, addResult_toNat]
  have hsa := signed8_cases a
  have hsb := signed8_cases b
  omega

/-- V as one bit of a formula in the operands and the result (R111). -/
theorem addOverflow_eq_xor (a b : Byte) :
    addOverflow a b = ((a ^^^ addResult a b) &&& (b ^^^ addResult a b)).getLsbD 7 := by
  rw [addOverflow, BitVec.getLsbD_and, BitVec.getLsbD_xor, BitVec.getLsbD_xor]
  cases a.getLsbD 7 <;> cases b.getLsbD 7 <;> simp

theorem addResult_eq_zero {a b : Byte} :
    addResult a b = 0 ↔ a.toNat + b.toNat = 0 ∨ a.toNat + b.toNat = 256 := by
  have ha : a.toNat < 256 := a.isLt
  have hb : b.toNat < 256 := b.isLt
  rw [← BitVec.toNat_inj, addResult_toNat]
  change _ = 0 ↔ _
  omega

/-- Settles O32, clause by clause. -/
theorem addFlagsClosedForms : Obligations.AddFlagsClosedForms := by
  rintro a b r rfl
  exact ⟨addCarry_eq_true, (addCarry_iff_lt a b).1, (addCarry_iff_lt a b).2, addOverflow_iff_out_of_range a b,
    addOverflow_eq_xor a b, addResult_eq_zero⟩

/-! ### Both readings -/

/-- The unsigned sum, exact but for the carry. -/
theorem addResult_unsigned (a b : Byte) :
    (addCarry a b = false → (addResult a b).toNat = a.toNat + b.toNat) ∧
      (addCarry a b = true → (addResult a b).toNat + 256 = a.toNat + b.toNat) := by
  have ha : a.toNat < 256 := a.isLt
  have hb : b.toNat < 256 := b.isLt
  rw [← Bool.not_eq_true, addCarry_eq_true, addResult_toNat]
  omega

/-- Without overflow the signed reading of the result is the exact sum. -/
theorem signed8_addResult {a b : Byte} (h : addOverflow a b = false) :
    signed8 (addResult a b) = signed8 a + signed8 b := by
  have hrange := mt (addOverflow_iff_out_of_range a b).mpr (by simp [h])
  have hr := addResult_toNat a b
  have hsa := signed8_cases a
  have hsb := signed8_cases b
  have hsr := signed8_cases (addResult a b)
  omega

/-- With overflow both operands have the sign that the result has not, and the sum is just out of range. -/
theorem signs_of_addOverflow {a b : Byte} (h : addOverflow a b = true) :
    (0 ≤ signed8 a ∧ 0 ≤ signed8 b ∧ signed8 (addResult a b) < 0 ∧
      128 ≤ signed8 a + signed8 b ∧ signed8 a + signed8 b ≤ 254) ∨
    (signed8 a < 0 ∧ signed8 b < 0 ∧ 0 ≤ signed8 (addResult a b) ∧
      -256 ≤ signed8 a + signed8 b ∧ signed8 a + signed8 b ≤ -129) := by
  have hrange := (addOverflow_iff_out_of_range a b).mp h
  have ha : a.toNat < 256 := a.isLt
  have hb : b.toNat < 256 := b.isLt
  have hr := addResult_toNat a b
  have hsa := signed8_cases a
  have hsb := signed8_cases b
  have hsr := signed8_cases (addResult a b)
  omega

/-- Settles O33: the unsigned reading, then the signed one without and with overflow. -/
theorem addServesBothReadings : Obligations.AddServesBothReadings :=
  fun a b => ⟨(addResult_unsigned a b).1, (addResult_unsigned a b).2, signed8_addResult, signs_of_addOverflow⟩

/-! ### The instruction -/

/-- ADD emits its opcode byte, fixed by the mode alone, and then the operand byte. -/
theorem encode_add {m : Mode} {b : Byte} (o : Byte) (h : encodeFields 0x5 m = b) : encode (.add m o) = [b, o] :=
  encode_of_operand rfl h

/-- The whole next state of ADD, from the value resolved past the operand byte. -/
theorem exec_add_eq_next {m : Mode} {o v r : Byte} {s : State}
    (hv : resolveValue m o { s with pc := s.pc + 2 } = v) (hr : r = addResult s.ac v) :
    exec (.add m o) s = .next { s with
      pc := s.pc + 2, ac := r, c := decide (255 < s.ac.toNat + v.toNat),
      v := decide ((128 ≤ s.ac.toNat ↔ 128 ≤ v.toNat) ∧ ¬ (128 ≤ r.toNat ↔ 128 ≤ s.ac.toNat)),
      n := decide (128 ≤ r.toNat), z := r == 0 } := by
  rw [← State.advance_advance] at hv
  rw [exec_add, hv, addOverflow_eq_decide, ← hr, State.loadAC_eq, State.advance_advance]
  rfl

/-- Settles O19: `decodeBytes_of_div` at the opcode 0x5, `encode_add` mode by mode, and `exec_add_eq_next`; the
mnemonic and the signal are entries of their tables. -/
theorem addAddsTheValue : Obligations.AddAddsTheValue := by
  refine ⟨fun _ o hb => decodeBytes_of_div o hb,
    fun o => ⟨encode_add o (by decide), encode_add o (by decide), encode_add o (by decide), encode_add o (by decide)⟩,
    by decide, fun _ _ => rfl, fun s m o v r hv hr => exec_add_eq_next hv ?_⟩
  rw [hr, addResult, addSum]
  exact BitVec.eq_of_toNat_eq (by simp)

end Sys2Proof.Machine
end

section
/-! PROOFS. The store address and the jump target mode by mode, and the instructions NOT, STA, the jumps, JSR and HLT:
their bytes and their whole next states (30_encoding.md, 41_load_store.md, 42_alu.md, 43_control.md, 44_system.md). -/

namespace Sys2Proof.Machine

/-! ### The store address and the jump target of each mode -/

@[simp] theorem resolveAddr_immediate (o : Byte) (s : State) : resolveAddr .immediate o s = none := rfl

@[simp] theorem resolveAddr_direct (o : Byte) (s : State) : resolveAddr .direct o s = some o := rfl

@[simp] theorem resolveAddr_indirect (o : Byte) (s : State) : resolveAddr .indirect o s = some (s.memRead o) := rfl

@[simp] theorem resolveAddr_relative (o : Byte) (s : State) :
    resolveAddr .relative o s = some (relativeAddr s.pc o) := rfl

@[simp] theorem resolveTarget_immediate (o : Byte) (s : State) : resolveTarget .immediate o s = o := rfl

@[simp] theorem resolveTarget_direct (o : Byte) (s : State) : resolveTarget .direct o s = o := rfl

@[simp] theorem resolveTarget_indirect (o : Byte) (s : State) : resolveTarget .indirect o s = s.memRead o := rfl

@[simp] theorem resolveTarget_relative (o : Byte) (s : State) :
    resolveTarget .relative o s = relativeAddr s.pc o := rfl

/-- A load reads where a store in the same mode writes. -/
theorem resolveValue_of_resolveAddr {m : Mode} {o : Byte} {s : State} {ea : Addr} (h : resolveAddr m o s = some ea) :
    resolveValue m o s = s.memRead ea := by
  cases m with
  | immediate => exact nomatch h
  | direct | indirect | relative => rw [← Option.some.inj h]; rfl

/-- A jump goes where a store in the same mode writes. -/
theorem resolveTarget_of_resolveAddr {m : Mode} {o : Byte} {s : State} {ea : Addr}
    (h : resolveAddr m o s = some ea) : resolveTarget m o s = ea := by
  cases m with
  | immediate => exact nomatch h
  | direct | indirect | relative => exact Option.some.inj h

/-- Settles O29: the table row by row, and the agreement of the three resolutions. -/
theorem addressAndTargetOfEachMode : Obligations.AddressAndTargetOfEachMode := by
  intro s o
  refine ⟨resolveAddr_immediate o s, resolveTarget_immediate o s, resolveAddr_direct o s, resolveTarget_direct o s,
    resolveAddr_indirect o s, resolveTarget_indirect o s, fun a ha => ?_,
    fun m ea h => ⟨resolveValue_of_resolveAddr h, resolveTarget_of_resolveAddr h⟩⟩
  obtain rfl := eq_relativeAddr_iff.mpr ha
  exact ⟨resolveAddr_relative o s, resolveTarget_relative o s⟩

/-! ### NOT -/

/-- The complement in plain arithmetic (R105). -/
theorem toNat_complement (a : Byte) : (~~~ a).toNat = 255 - a.toNat := BitVec.toNat_not

/-- The whole next state of NOT. -/
theorem exec_not_eq_next (s : State) :
    exec .not s = .next { s with
      pc := s.pc + 1, ac := ~~~ s.ac, n := decide (128 ≤ (~~~ s.ac).toNat), z := ~~~ s.ac == 0 } := by
  rw [exec_not, State.loadAC_eq]
  rfl

/-- Settles O16: `exec_not_eq_next`, its complement written as a number. -/
theorem notComplementsAC : Obligations.NotComplementsAC := by
  refine ⟨fun _ o hb => decodeBytes_of_div o hb, encode_of_no_operand rfl (by decide), by decide, rfl, fun s => ?_⟩
  have hac : BitVec.ofNat 8 (255 - s.ac.toNat) = ~~~ s.ac := by
    rw [← toNat_complement, BitVec.ofNat_toNat, BitVec.setWidth_eq]
  have hz : (~~~ s.ac == 0) = (255 - s.ac.toNat == 0) := by
    rw [Bool.eq_iff_iff, beq_iff_eq, beq_iff_eq, ← BitVec.toNat_inj, toNat_complement]
    rfl
  rw [exec_not_eq_next, hz, toNat_complement, hac]

/-! ### STA -/

/-- STA emits its opcode byte, fixed by the mode alone, and then the operand byte. -/
theorem encode_sta {m : Mode} {b : Byte} (o : Byte) (h : encodeFields 0x1 m = b) : encode (.sta m o) = [b, o] :=
  encode_of_operand rfl h

/-- Immediate mode has no address to store to (R59, R100). -/
theorem exec_sta_immediate (o : Byte) (s : State) :
    exec (.sta .immediate o) s = .fault (.invalidAddressingMode s.pc) := rfl

/-- The whole next state of STA, from the address resolved past the operand byte. -/
theorem exec_sta_of_resolveAddr {m : Mode} {o : Byte} {s : State} {ea : Addr}
    (h : resolveAddr m o { s with pc := s.pc + 2 } = some ea) :
    exec (.sta m o) s = .next (({ s with pc := s.pc + 2 } : State).memWrite ea s.ac) := by
  rw [← State.advance_advance] at h ⊢
  exact exec_sta_eq_next.mpr ⟨ea, h, rfl⟩

/-- Settles O17: `exec_sta_of_resolveAddr` with what a cell reads after a write, and `exec_sta_immediate`. -/
theorem staStoresAC : Obligations.StaStoresAC := by
  refine ⟨fun _ o hb => decodeBytes_of_div o hb,
    fun o => ⟨encode_sta o (by decide), encode_sta o (by decide), encode_sta o (by decide)⟩,
    by decide, fun _ _ => rfl, fun s m o hm => ?_, fun s o => exec_sta_immediate o s⟩
  obtain ⟨ea, hea⟩ := Option.ne_none_iff_exists'.mp
    (mt (resolveAddr_eq_none m o { s with pc := s.pc + 2 }).mp hm)
  refine ⟨ea, _, hea, exec_sta_of_resolveAddr hea, rfl, ?_, fun a ha => ?_⟩
  · rw [State.memRead_memWrite, if_pos rfl]
  · rw [State.memRead_memWrite, if_neg ha]
    rfl

/-! ### The jumps and JSR -/

/-- The whole state after a jump that is taken: PC alone changes. -/
theorem jumpTo_advance_advance (m : Mode) (o : Byte) (s : State) :
    jumpTo m o s.advance.advance = { s with pc := resolveTarget m o { s with pc := s.pc + 2 } } := by
  rw [State.advance_advance]
  rfl

theorem jumpIf_true (m : Mode) (o : Byte) (s : State) :
    jumpIf true m o s = { s with pc := resolveTarget m o { s with pc := s.pc + 2 } } :=
  jumpTo_advance_advance m o s

theorem jumpIf_false (m : Mode) (o : Byte) (s : State) : jumpIf false m o s = { s with pc := s.pc + 2 } :=
  State.advance_advance s

/-- The bytes of a two-byte operation in its four modes: the opcode byte is the one its number and mode make. -/
theorem encode_each_mode {mk : Mode → Byte → Instr} {op : BitVec 4} (hop : ∀ m o, (mk m o).opcode = op)
    (hm : ∀ m o, (mk m o).mode = m) (ho : ∀ m o, (mk m o).operand = some o) (o : Byte) :
    encode (mk .immediate o) = [encodeFields op .immediate, o] ∧
    encode (mk .direct o) = [encodeFields op .direct, o] ∧
    encode (mk .indirect o) = [encodeFields op .indirect, o] ∧
    encode (mk .relative o) = [encodeFields op .relative, o] := by
  have hbytes (m : Mode) : encode (mk m o) = [encodeFields op m, o] :=
    encode_of_operand (ho m o) (by rw [hop, hm])
  exact ⟨hbytes _, hbytes _, hbytes _, hbytes _⟩

/-- The bytes of JMP and of JSR in their modes. -/
theorem encode_jmp (o : Byte) :
    encode (.jmp .immediate o) = [0x80, o] ∧ encode (.jmp .direct o) = [0x84, o] ∧
    encode (.jmp .indirect o) = [0x88, o] ∧ encode (.jmp .relative o) = [0x8C, o] :=
  encode_each_mode (mk := .jmp) (op := 0x8) (fun _ _ => rfl) (fun _ _ => rfl) (fun _ _ => rfl) o

theorem encode_jsr (o : Byte) :
    encode (.jsr .immediate o) = [0xC0, o] ∧ encode (.jsr .direct o) = [0xC4, o] ∧
    encode (.jsr .indirect o) = [0xC8, o] ∧ encode (.jsr .relative o) = [0xCC, o] :=
  encode_each_mode (mk := .jsr) (op := 0xC) (fun _ _ => rfl) (fun _ _ => rfl) (fun _ _ => rfl) o

/-- The bytes of the four conditional jumps in their modes. -/
theorem encode_jc (o : Byte) :
    encode (.jc .immediate o) = [0x90, o] ∧ encode (.jc .direct o) = [0x94, o] ∧
    encode (.jc .indirect o) = [0x98, o] ∧ encode (.jc .relative o) = [0x9C, o] :=
  encode_each_mode (mk := .jc) (op := 0x9) (fun _ _ => rfl) (fun _ _ => rfl) (fun _ _ => rfl) o

theorem encode_jn (o : Byte) :
    encode (.jn .immediate o) = [0xA0, o] ∧ encode (.jn .direct o) = [0xA4, o] ∧
    encode (.jn .indirect o) = [0xA8, o] ∧ encode (.jn .relative o) = [0xAC, o] :=
  encode_each_mode (mk := .jn) (op := 0xA) (fun _ _ => rfl) (fun _ _ => rfl) (fun _ _ => rfl) o

theorem encode_jz (o : Byte) :
    encode (.jz .immediate o) = [0xB0, o] ∧ encode (.jz .direct o) = [0xB4, o] ∧
    encode (.jz .indirect o) = [0xB8, o] ∧ encode (.jz .relative o) = [0xBC, o] :=
  encode_each_mode (mk := .jz) (op := 0xB) (fun _ _ => rfl) (fun _ _ => rfl) (fun _ _ => rfl) o

theorem encode_jv (o : Byte) :
    encode (.jv .immediate o) = [0xE0, o] ∧ encode (.jv .direct o) = [0xE4, o] ∧
    encode (.jv .indirect o) = [0xE8, o] ∧ encode (.jv .relative o) = [0xEC, o] :=
  encode_each_mode (mk := .jv) (op := 0xE) (fun _ _ => rfl) (fun _ _ => rfl) (fun _ _ => rfl) o

/-- Settles O22: `decodeBytes_of_div` at the opcode 0x8, `encode_jmp`, and `jumpTo_advance_advance`. -/
theorem jmpGoesToTheTarget : Obligations.JmpGoesToTheTarget := by
  refine ⟨fun _ o hb => decodeBytes_of_div o hb, encode_jmp, by decide, fun _ _ => rfl, fun s m o => ?_⟩
  rw [exec_jmp, jumpTo_advance_advance]

/-- Settles O24: `decodeBytes_of_div` at the opcode 0xC, `encode_jsr`, and the jump with the return address put in
RS. -/
theorem jsrSavesTheReturnAddress : Obligations.JsrSavesTheReturnAddress := by
  refine ⟨fun _ o hb => decodeBytes_of_div o hb, encode_jsr, by decide, fun _ _ => rfl, fun s m o => ?_⟩
  rw [exec_jsr, jumpTo_advance_advance]
  rfl

/-- Settles O23: the four opcodes by `decodeBytes_of_div`, their bytes, and for each the jump on its own flag, by
`jumpIf_true` and `jumpIf_false`. -/
theorem conditionalJumpsTestTheirFlag : Obligations.ConditionalJumpsTestTheirFlag := by
  refine ⟨fun _ o => ⟨decodeBytes_of_div o, decodeBytes_of_div o, decodeBytes_of_div o, decodeBytes_of_div o⟩,
    fun o => ?_, by decide, by decide, by decide, by decide, fun _ _ => ⟨rfl, rfl, rfl, rfl⟩, fun s m o => ?_⟩
  · obtain ⟨hc0, hc1, hc2, hc3⟩ := encode_jc o
    obtain ⟨hn0, hn1, hn2, hn3⟩ := encode_jn o
    obtain ⟨hz0, hz1, hz2, hz3⟩ := encode_jz o
    exact ⟨hc0, hc1, hc2, hc3, hn0, hn1, hn2, hn3, hz0, hz1, hz2, hz3, encode_jv o⟩
  · simp only [exec_jc, exec_jn, exec_jz, exec_jv]
    refine ⟨?_, ?_, ?_, ?_, ?_, ?_, ?_, ?_⟩ <;> intro hf <;> simp only [hf, jumpIf_true, jumpIf_false]

/-! ### HLT -/

/-- The halt signal is HLT's alone (R62, R128). -/
theorem continues_eq_false {i : Instr} : continues i = false ↔ i = .hlt := by
  cases i <;> simp [continues]

/-- Settles O26: one byte at the opcode 0xF, a next state with PC one byte on, and `continues_eq_false`. -/
theorem hltHalts : Obligations.HltHalts :=
  ⟨fun _ o hb => decodeBytes_of_div o hb, encode_of_no_operand rfl (by decide), by decide, fun _ => rfl,
    fun _ => continues_eq_false⟩

end Sys2Proof.Machine
end

section
/-! PROOFS. What every instruction does and leaves unchanged, field by field, and from that the tables of flag effects
and of frames (10_state.md) and what every step keeps (70_reset_and_hazards.md, section 6). -/

namespace Sys2Proof.Machine

/-! ### Completion -/

/-- An instruction completes, but for STA with Immediate mode (R132, R140). -/
theorem exec_completes_or_faults (i : Instr) (s : State) :
    (∃ t, exec i s = .next t) ∨
      ∃ o, i = .sta .immediate o ∧ exec i s = .fault (.invalidAddressingMode s.pc) := by
  cases i
  case sta m o =>
    obtain ⟨rfl, hf⟩ | ⟨ea, -, hn⟩ := execSta_cases m o s
    · exact .inr ⟨o, rfl, hf⟩
    · exact .inl ⟨_, hn⟩
  all_goals exact .inl ⟨_, rfl⟩

theorem exec_eq_fault {i : Instr} {s : State} {f : Fault} :
    exec i s = .fault f ↔ (∃ o, i = .sta .immediate o) ∧ f = .invalidAddressingMode s.pc := by
  constructor
  · intro h
    obtain ⟨t, ht⟩ | ⟨o, hi, ho⟩ := exec_completes_or_faults i s
    · exact nomatch ht.symm.trans h
    · exact ⟨⟨o, hi⟩, Host.Outcome.fault.inj (h.symm.trans ho)⟩
  · rintro ⟨⟨o, rfl⟩, rfl⟩
    exact exec_sta_immediate o s

theorem exec_ne_refused (i : Instr) (s : State) (r : Refusal) : exec i s ≠ .refused r := by
  intro h
  obtain ⟨t, ht⟩ | ⟨o, -, ho⟩ := exec_completes_or_faults i s
  · exact nomatch ht.symm.trans h
  · exact nomatch ho.symm.trans h

/-! ### One field after another -/

/-- Memory after an instruction that completes: AC stored at the address that STA resolves, and for every other
instruction the memory as it was. -/
theorem exec_mem {i : Instr} {s t : State} (h : exec i s = .next t) :
    t.mem = (storeAddr i s).elim s.mem fun ea => Memory.write s.mem ea.toNat s.ac := by
  cases i
  case sta m o =>
    obtain ⟨ea, hea, rfl⟩ := exec_sta_eq_next.mp h
    simp [storeAddr, hea]
  case jsr =>
    obtain rfl := Host.Outcome.next.inj ((exec_jsr _ _ _).symm.trans h)
    rfl
  all_goals
    obtain rfl := Host.Outcome.next.inj h
    simp [storeAddr]

/-- C and V have one writer (R16, R17). -/
theorem exec_cv_of_not_isAdd {i : Instr} {s t : State} (hi : isAdd i = false) (h : exec i s = .next t) :
    t.c = s.c ∧ t.v = s.v := by
  cases i
  case add => exact nomatch hi
  case sta =>
    obtain ⟨ea, -, rfl⟩ := exec_sta_eq_next.mp h
    exact ⟨rfl, rfl⟩
  all_goals
    obtain rfl := Host.Outcome.next.inj h
    simp

/-- AC and the flags that describe it are written together or not at all. -/
theorem exec_ac_of_not_writesAC {i : Instr} {s t : State} (hi : writesAC i = false) (h : exec i s = .next t) :
    t.ac = s.ac ∧ t.n = s.n ∧ t.z = s.z := by
  cases i
  case not | lda | add | or | and => exact nomatch hi
  case sta =>
    obtain ⟨ea, -, rfl⟩ := exec_sta_eq_next.mp h
    exact ⟨rfl, rfl, rfl⟩
  all_goals
    obtain rfl := Host.Outcome.next.inj h
    simp

/-- An instruction that writes AC ends in `loadAC`, after which N and Z describe AC (R19, R20). -/
theorem exec_flagsDescribeAC {i : Instr} {s t : State} (hi : writesAC i = true) (h : exec i s = .next t) :
    FlagsDescribeAC t := by
  cases i
  case not | lda | add | or | and =>
    obtain rfl := Host.Outcome.next.inj h
    exact ⟨rfl, rfl⟩
  all_goals exact nomatch hi

/-- The carry and the overflow of ADD, from the value resolved past the operand byte. -/
theorem exec_add_cv {m : Mode} {o v : Byte} {s t : State} (hv : resolveValue m o { s with pc := s.pc + 2 } = v)
    (h : exec (.add m o) s = .next t) :
    t.c = decide (255 < s.ac.toNat + v.toNat) ∧
      t.v = decide ((128 ≤ s.ac.toNat ↔ 128 ≤ v.toNat) ∧ ¬ (128 ≤ t.ac.toNat ↔ 128 ≤ s.ac.toNat)) := by
  obtain rfl := Host.Outcome.next.inj ((exec_add_eq_next hv rfl).symm.trans h)
  exact ⟨rfl, rfl⟩

/-! ### The tables -/

/-- Settles O34: `exec_add_cv` for ADD, and the frame or the description of AC for the others. -/
theorem flagEffectsOfEveryInstruction : Obligations.FlagEffectsOfEveryInstruction := by
  intro i s t h
  refine ⟨?_, fun hi => exec_cv_of_not_isAdd hi h, fun hi => ?_, fun hi => (exec_ac_of_not_writesAC hi h).2⟩
  · rintro m o v rfl hv
    exact exec_add_cv hv h
  · obtain ⟨hn, hz⟩ := exec_flagsDescribeAC hi h
    refine ⟨hn.trans (getLsbD_seven_eq_decide _), hz.trans ?_⟩
    rw [Bool.eq_iff_iff, beq_iff_eq, beq_iff_eq, ← BitVec.toNat_inj]
    rfl

/-- A cell after an instruction that completes: AC where the instruction stores, the earlier byte everywhere else. -/
theorem exec_memRead {i : Instr} {s t : State} (h : exec i s = .next t) (a : Addr) :
    t.memRead a = if storeAddr i s = some a then s.ac else s.memRead a := by
  rw [State.memRead, exec_mem h]
  cases storeAddr i s with
  | none => rfl
  | some ea =>
    simp only [Option.elim_some, Memory.read_write, BitVec.toNat_inj, Option.some.injEq, eq_comm (a := a)]
    rfl

/-- Settles O35: one writer for each field, and `exec_memRead` for memory. -/
theorem whatEveryInstructionLeavesUnchanged : Obligations.WhatEveryInstructionLeavesUnchanged := by
  intro i s t h
  refine ⟨fun hi => exec_ac_of_not_writesAC hi h, fun hi => ?_, fun hi => exec_cv_of_not_isAdd hi h,
    fun ea hea => ?_, fun a ha => ?_, fun hnone => ?_⟩
  · rw [exec_rs h, hi, if_neg Bool.false_ne_true]
  · rw [exec_memRead h, if_pos hea]
  · rw [exec_memRead h, if_neg ha]
  · rw [exec_mem h, hnone, Option.elim_none]

/-! ### What every step keeps -/

/-- Settles O37: a step writes memory by one write at most, and a write keeps the canonical form. -/
theorem stepKeepsMemoryCanonical : Obligations.StepKeepsMemoryCanonical := by
  intro s t hwf h
  obtain ⟨i, -, hi⟩ := step_eq_next h
  rw [exec_mem hi]
  cases storeAddr i s with
  | none => exact hwf
  | some ea => exact Memory.write_wf ea.isLt hwf

/-- Settles O38: the reset state field by field; AC is 0 and Z is not set. -/
theorem resetStateIsAllZero : Obligations.ResetStateIsAllZero :=
  ⟨State.reset_mem_wf, fun _ => rfl, rfl, rfl, rfl, rfl, rfl, rfl, rfl, fun h => nomatch h.2⟩

/-- A relation between N, Z and AC that a write of AC establishes is kept by every step. -/
theorem step_keeps_of_flagsDescribeAC {P : Bool → Bool → Byte → Prop} {s t : State}
    (hest : ∀ u, FlagsDescribeAC u → P u.n u.z u.ac) (hs : P s.n s.z s.ac) (h : step s = .next t) :
    P t.n t.z t.ac := by
  obtain ⟨i, -, hi⟩ := step_eq_next h
  cases hw : writesAC i with
  | true => exact hest t (exec_flagsDescribeAC hw hi)
  | false =>
    obtain ⟨hac, hn, hz⟩ := exec_ac_of_not_writesAC hw hi
    rw [hac, hn, hz]
    exact hs

/-- Settles O39: the five writers of AC establish both equations, and every step keeps what they establish. -/
theorem stepKeepsFlagsDescribingAC : Obligations.StepKeepsFlagsDescribingAC := by
  refine ⟨fun s t i hi hw h => ?_, fun s t hs h => ?_, fun s t hs h => ?_⟩
  · exact exec_flagsDescribeAC hw ((step_of_fetch hi).symm.trans h)
  · exact step_keeps_of_flagsDescribeAC (P := fun n _ ac => n = ac.getLsbD 7) (fun _ hu => hu.1) hs h
  · exact step_keeps_of_flagsDescribeAC (P := fun n z ac => n = ac.getLsbD 7 ∧ z = (ac == 0)) (fun _ hu => hu) hs h

/-! ### PC -/

/-- PC after a conditional jump: the target where the flag is set, past the operand byte where it is not (R115). -/
theorem jumpIf_pc (f : Bool) (m : Mode) (o : Byte) (s : State) :
    (jumpIf f m o s).pc = if f then resolveTarget m o { s with pc := s.pc + 2 } else s.pc + 2 := by
  cases f with
  | true => rw [jumpIf_true]; rfl
  | false => rw [jumpIf_false]; rfl

/-- Settles O14: the whole next states of the instructions, of which PC is read off. -/
theorem pcAfterAStep : Obligations.PcAfterAStep := by
  intro s t i hi h
  rw [step_of_fetch hi] at h
  cases i
  case sta =>
    obtain ⟨ea, -, rfl⟩ := exec_sta_eq_next.mp h
    rw [State.advance_advance]
    rfl
  case jsr =>
    obtain rfl := Host.Outcome.next.inj ((exec_jsr _ _ _).symm.trans h)
    rw [jumpTo_advance_advance]
    rfl
  case jc | jn | jz | jv =>
    obtain rfl := Host.Outcome.next.inj h
    exact jumpIf_pc _ _ _ _
  case jmp =>
    obtain rfl := Host.Outcome.next.inj h
    rw [jumpTo_advance_advance]
  case not | hlt | rts =>
    obtain rfl := Host.Outcome.next.inj h
    rfl
  case lda | add | or | and =>
    obtain rfl := Host.Outcome.next.inj h
    rw [State.advance_advance]
    rfl

end Sys2Proof.Machine
end

section
/-! PROOFS. How a step ends, by the opcode byte at PC (60_exceptions.md, 44_system.md), and the sequences of steps: what
they do to RS and how a run counts them (43_control.md, 70_reset_and_hazards.md). -/

namespace Sys2Proof.Machine

/-! ### The fetch -/

theorem fetchInstr_eq_none {s : State} :
    fetchInstr s = none ↔ 0x20 ≤ (s.memRead s.pc).toNat ∧ (s.memRead s.pc).toNat ≤ 0x3F :=
  decodeBytes_eq_none_iff_range

theorem fetchInstr_eq_hlt {s : State} : fetchInstr s = some .hlt ↔ 0xF0 ≤ (s.memRead s.pc).toNat :=
  decodeBytes_eq_hlt

/-- STA with Immediate mode is fetched exactly at the opcode bytes 0x10 to 0x13. -/
theorem exists_fetchInstr_eq_sta_immediate {s : State} :
    (∃ o, fetchInstr s = some (.sta .immediate o)) ↔
      0x10 ≤ (s.memRead s.pc).toNat ∧ (s.memRead s.pc).toNat ≤ 0x13 :=
  ⟨fun ⟨_, h⟩ => (decodeBytes_eq_sta_immediate.mp h).2,
    fun h => ⟨s.operandByte, decodeBytes_eq_sta_immediate.mpr ⟨rfl, h⟩⟩⟩

/-- The sequence decoder on the two bytes at PC reads what the fetch reads. -/
theorem fetchInstr_of_decode {s : State} {i : Instr} {rest : List Byte}
    (h : decode [s.memRead s.pc, s.memRead (s.pc + 1)] = .ok (i, rest)) : fetchInstr s = some i := by
  obtain ⟨b, hb, hlen, hi⟩ | ⟨b, o, hb, -, hi⟩ := decode_eq_ok h
  · obtain ⟨rfl, -⟩ := List.cons.inj hb
    exact (decodeBytes_of_length_one rfl hlen _ _).trans hi
  · obtain ⟨rfl, hb'⟩ := List.cons.inj hb
    obtain ⟨rfl, -⟩ := List.cons.inj hb'
    exact hi

/-- Settles O9: the fetch and the sequence decoder agree, and the step executes what was fetched. -/
theorem stepRunsTheDecodedInstruction : Obligations.StepRunsTheDecodedInstruction :=
  fun _ _ _ h => step_of_fetch (fetchInstr_of_decode h)

/-! ### The ways a step can end -/

/-- The fault of a step, by what was fetched. -/
theorem step_eq_fault {s : State} {f : Fault} :
    step s = .fault f ↔
      (fetchInstr s = none ∧ f = .unknownOpcode s.pc) ∨
      ((∃ o, fetchInstr s = some (.sta .immediate o)) ∧ f = .invalidAddressingMode s.pc) := by
  cases hi : fetchInstr s with
  | none => simp [step_of_unknown hi, eq_comm]
  | some i => simp [step_of_fetch hi, exec_eq_fault]

theorem step_ne_refused (s : State) (r : Refusal) : step s ≠ .refused r := by
  cases hi : fetchInstr s with
  | none => simp [step_of_unknown hi]
  | some i => simpa [step_of_fetch hi] using exec_ne_refused i s r

/-- Settles O10: `step_eq_fault`, and the opcode bytes at which the fetch finds nothing. -/
theorem unknownOpcodeFaultsExactly : Obligations.UnknownOpcodeFaultsExactly := by
  intro s a
  simp [step_eq_fault, fetchInstr_eq_none, and_comm]

/-- Settles O11: `step_eq_fault`, and the opcode bytes at which the fetch finds STA with Immediate mode; then
`exec_eq_fault`. -/
theorem invalidAddressingModeFaultsExactly : Obligations.InvalidAddressingModeFaultsExactly := by
  refine ⟨fun s a => ?_, fun _ _ _ => exec_eq_fault⟩
  simp [step_eq_fault, exists_fetchInstr_eq_sta_immediate, and_comm]

/-- Settles O12: a step that does not complete has a fault, and neither fault's opcode bytes are among these. -/
theorem everyOtherOpcodeByteCompletes : Obligations.EveryOtherOpcodeByteCompletes := by
  intro s hb
  cases h : step s with
  | next t => exact ⟨t, rfl⟩
  | refused r => exact absurd h (step_ne_refused s r)
  | fault f =>
    obtain ⟨hi, -⟩ | ⟨hi, -⟩ := step_eq_fault.mp h
    · have := fetchInstr_eq_none.mp hi
      omega
    · have := exists_fetchInstr_eq_sta_immediate.mp hi
      omega

theorem fetchStep_ne_refused (s : State) (r : Refusal) : fetchStep s ≠ .refused r := by
  cases h : step s with
  | refused r' => exact absurd h (step_ne_refused s r')
  | fault f => simp [fetchStep_eq_faulted.mpr h]
  | next t =>
    cases hc : signalsContinue s with
    | true => simp [fetchStep_eq_continued.mpr ⟨h, hc⟩]
    | false => simp [fetchStep_eq_halted.mpr ⟨h, hc⟩]

/-- Settles O13: instruction, step and signalling step. -/
theorem nothingIsRefused : Obligations.NothingIsRefused :=
  ⟨exec_ne_refused, fun s r => ⟨step_ne_refused s r, fetchStep_ne_refused s r⟩⟩

/-! ### The signal of a step -/

/-- A step signals continue where it completes an instruction other than HLT. -/
theorem fetchStep_eq_continued_iff_fetch {s t : State} :
    fetchStep s = .continued t ↔ ∃ i, fetchInstr s = some i ∧ i ≠ .hlt ∧ step s = .next t := by
  rw [fetchStep_eq_continued]
  constructor
  · rintro ⟨hs, hc⟩
    obtain ⟨i, hi, -⟩ := step_eq_next hs
    refine ⟨i, hi, ?_, hs⟩
    rintro rfl
    simp [signalsContinue, hi, continues] at hc
  · rintro ⟨i, hi, hne, hs⟩
    refine ⟨hs, ?_⟩
    have hc : continues i = true := Bool.eq_true_of_not_eq_false (mt continues_eq_false.mp hne)
    simp [signalsContinue, hi, hc]

/-- A step signals halt at HLT, which moves PC one byte and does nothing else. -/
theorem fetchStep_eq_halted_iff_fetch {s t : State} :
    fetchStep s = .halted t ↔ fetchInstr s = some .hlt ∧ t = { s with pc := s.pc + 1 } := by
  rw [fetchStep_eq_halted]
  constructor
  · rintro ⟨hs, hc⟩
    obtain ⟨i, hi, hex⟩ := step_eq_next hs
    have hhlt : i = .hlt := continues_eq_false.mp (by simpa [signalsContinue, hi] using hc)
    subst hhlt
    exact ⟨hi, (Host.Outcome.next.inj hex).symm⟩
  · rintro ⟨hi, rfl⟩
    exact ⟨step_of_fetch hi, by simp [signalsContinue, hi, continues]⟩

/-- Settles O15: the halt signal is HLT's, and HLT is fetched exactly at these opcode bytes. -/
theorem haltSignalExactlyAtHlt : Obligations.HaltSignalExactlyAtHlt :=
  fun _ _ => fetchStep_eq_halted_iff_fetch.trans (and_congr_left' fetchInstr_eq_hlt)

/-! ### RS along a sequence of steps -/

/-- RS after a step is the start value of the rest of the sequence. -/
theorem step_rs {s t : State} {i : Instr} (hi : fetchInstr s = some i) (h : step s = .next t) :
    t.rs = if isJsr i then s.pc + 2 else s.rs :=
  exec_rs ((step_of_fetch hi).symm.trans h)

/-- Settles O40, by induction on the sequence: one step puts its return address in RS or keeps it. -/
theorem returnSlotHoldsTheLastReturnAddress : Obligations.ReturnSlotHoldsTheLastReturnAddress := by
  intro s t l h
  induction h with
  | nil s => rfl
  | cons hi hs _ ih => rw [ih, step_rs hi hs, lastReturnAddr]

theorem lastReturnAddr_append (r : Addr) (l1 l2 : List (Addr × Instr)) :
    lastReturnAddr r (l1 ++ l2) = lastReturnAddr (lastReturnAddr r l1) l2 := by
  induction l1 generalizing r with
  | nil => rfl
  | cons p l1 ih => exact ih _

/-- A sequence without a JSR keeps the return address. -/
theorem lastReturnAddr_of_no_jsr (r : Addr) {l : List (Addr × Instr)} (h : ∀ p ∈ l, isJsr p.2 = false) :
    lastReturnAddr r l = r := by
  induction l with
  | nil => rfl
  | cons p l ih =>
    obtain ⟨hp, hl⟩ := List.forall_mem_cons.mp h
    rw [lastReturnAddr, hp, if_neg Bool.false_ne_true, ih hl]

/-- Settles O41: RTS goes to RS, which holds the address after the last JSR of the sequence, or after the first
one. -/
theorem returnGoesAfterTheLastCall : Obligations.ReturnGoesAfterTheLastCall := by
  intro s s1 s2 t m o l hjsr h1 htr hrts h2
  have hpc : t.pc = lastReturnAddr (s.pc + 2) l := by
    rw [pcAfterAStep s2 t .rts hrts h2, returnSlotHoldsTheLastReturnAddress s1 s2 l htr, step_rs hjsr h1]
    rfl
  refine ⟨fun hl => hpc.trans (lastReturnAddr_of_no_jsr _ hl), ?_⟩
  rintro l1 l2 a j rfl hj hl2
  rw [hpc, lastReturnAddr_append, lastReturnAddr, hj, if_pos rfl, lastReturnAddr_of_no_jsr _ hl2]

/-! ### Runs and their bounds -/

theorem run_succ_of_continued {s t : State} (k : Nat) (h : fetchStep s = .continued t) : run (k + 1) s = run k t := by
  rw [run, h]

theorem run_succ_of_halted {s t : State} (k : Nat) (h : fetchStep s = .halted t) : run (k + 1) s = .halted t := by
  rw [run, h]

theorem run_succ_of_faulted {s : State} {f : Fault} (k : Nat) (h : fetchStep s = .faulted f) :
    run (k + 1) s = .faulted f := by
  rw [run, h]

theorem run_add_of_outOfFuel {j : Nat} {s t : State} (k : Nat) (h : run j s = .outOfFuel t) :
    run (j + k) s = run k t := by
  induction j generalizing s with
  | zero => rw [Nat.zero_add, RunResult.outOfFuel.inj h]
  | succ j ih =>
    rw [Nat.add_right_comm]
    cases hs : fetchStep s with
    | continued u =>
      rw [run_succ_of_continued j hs] at h
      rw [run_succ_of_continued _ hs, ih h]
    | halted u => exact nomatch (run_succ_of_halted j hs).symm.trans h
    | faulted f => exact nomatch (run_succ_of_faulted j hs).symm.trans h
    | refused r => exact absurd hs (fetchStep_ne_refused s r)

/-- A run that has ended within a bound ends alike within every greater one. -/
theorem run_add_of_ended {j : Nat} {s : State} (k : Nat) (h : ∀ t, run j s ≠ .outOfFuel t) :
    run (j + k) s = run j s := by
  induction j generalizing s with
  | zero => exact absurd rfl (h s)
  | succ j ih =>
    rw [Nat.add_right_comm]
    cases hs : fetchStep s with
    | continued u =>
      rw [run_succ_of_continued j hs] at h ⊢
      rw [run_succ_of_continued _ hs, ih h]
    | halted u => rw [run_succ_of_halted _ hs, run_succ_of_halted _ hs]
    | faulted f => rw [run_succ_of_faulted _ hs, run_succ_of_faulted _ hs]
    | refused r => exact absurd hs (fetchStep_ne_refused s r)

/-- Settles O45: the run that ended, and the run cut short. -/
theorem aGreaterBoundGivesTheSameRun : Obligations.AGreaterBoundGivesTheSameRun := by
  refine ⟨?_, fun j k s t h => run_add_of_outOfFuel k h⟩
  rintro j k s r rfl h
  exact run_add_of_ended k h

/-- Two bounds within which a run has ended give one result: their sum gives both. -/
theorem run_unique {j k : Nat} {s : State} {r r' : RunResult} (hj : run j s = r) (hk : run k s = r')
    (hr : ∀ t, r ≠ .outOfFuel t) (hr' : ∀ t, r' ≠ .outOfFuel t) : r = r' := by
  subst hj hk
  rw [← run_add_of_ended k hr, Nat.add_comm, run_add_of_ended j hr']

/-- Settles O46: `run_unique`, at two halts, at two faults, and at one of each. -/
theorem aRunEndsInOneWay : Obligations.ARunEndsInOneWay := by
  intro s t t' f f'
  refine ⟨?_, ?_, ?_⟩
  · rintro ⟨j, hj⟩ ⟨k, hk⟩
    exact RunResult.halted.inj (run_unique hj hk nofun nofun)
  · rintro ⟨j, hj⟩ ⟨k, hk⟩
    exact RunResult.faulted.inj (run_unique hj hk nofun nofun)
  · rintro ⟨⟨j, hj⟩, k, hk⟩
    exact nomatch run_unique hj hk nofun nofun

/-! ### Runs and the sequences of steps they execute -/

/-- A run cut short goes through a sequence of steps without a HLT, one for each unit of the bound. -/
theorem trace_of_run_outOfFuel {k : Nat} {s t : State} (h : run k s = .outOfFuel t) :
    ∃ l : List (Addr × Instr), l.length = k ∧ Trace s l t ∧ ∀ p ∈ l, p.2 ≠ .hlt := by
  induction k generalizing s with
  | zero =>
    obtain rfl := RunResult.outOfFuel.inj h
    exact ⟨[], rfl, .nil s, nofun⟩
  | succ k ih =>
    cases hs : fetchStep s with
    | continued u =>
      rw [run_succ_of_continued k hs] at h
      obtain ⟨i, hi, hne, hstep⟩ := fetchStep_eq_continued_iff_fetch.mp hs
      obtain ⟨l, hlen, htr, hl⟩ := ih h
      exact ⟨(s.pc, i) :: l, congrArg (· + 1) hlen, .cons hi hstep htr, List.forall_mem_cons.mpr ⟨hne, hl⟩⟩
    | halted u => exact nomatch (run_succ_of_halted k hs).symm.trans h
    | faulted f => exact nomatch (run_succ_of_faulted k hs).symm.trans h
    | refused r => exact absurd hs (fetchStep_ne_refused s r)

/-- A sequence of steps without a HLT uses up the bound that is its length. -/
theorem run_of_trace {s t : State} {l : List (Addr × Instr)} (h : Trace s l t) (hl : ∀ p ∈ l, p.2 ≠ .hlt) :
    run l.length s = .outOfFuel t := by
  induction h with
  | nil s => rfl
  | cons hi hs _ ih =>
    obtain ⟨hne, hl'⟩ := List.forall_mem_cons.mp hl
    exact (run_succ_of_continued _ (fetchStep_eq_continued_iff_fetch.mpr ⟨_, hi, hne, hs⟩)).trans (ih hl')

/-- Settles O57: both directions between a run and its sequence of steps. -/
theorem aBoundCountsInstructions : Obligations.ABoundCountsInstructions := by
  intro k s t
  constructor
  · exact trace_of_run_outOfFuel
  · rintro ⟨l, rfl, htr, hl⟩
    exact run_of_trace htr hl

/-- The last step of a run that halts: the bound before it is used up in a state whose step halts. -/
theorem run_eq_halted {k : Nat} {s t : State} (h : run k s = .halted t) :
    ∃ j u, run j s = .outOfFuel u ∧ fetchStep u = .halted t := by
  induction k generalizing s with
  | zero => exact nomatch h
  | succ k ih =>
    cases hs : fetchStep s with
    | continued v =>
      rw [run_succ_of_continued k hs] at h
      obtain ⟨j, u, hj, hu⟩ := ih h
      exact ⟨j + 1, u, (run_succ_of_continued j hs).trans hj, hu⟩
    | halted v => exact ⟨0, s, rfl, by rw [hs, RunResult.halted.inj ((run_succ_of_halted k hs).symm.trans h)]⟩
    | faulted f => exact nomatch (run_succ_of_faulted k hs).symm.trans h
    | refused r => exact absurd hs (fetchStep_ne_refused s r)

/-- Settles O47: the sequence up to the last step of the run, and that step. -/
theorem aHaltedRunEndsAtAHlt : Obligations.AHaltedRunEndsAtAHlt := by
  rintro s t ⟨k, hk⟩
  obtain ⟨j, u, hj, hu⟩ := run_eq_halted hk
  obtain ⟨l, -, htr, hl⟩ := trace_of_run_outOfFuel hj
  exact ⟨l, u, htr, hl, fetchStep_eq_halted_iff_fetch.mp hu⟩

/-! ### Two endless runs -/

/-- A state that a step leaves as it is stays so within every bound. -/
theorem run_of_fixed {s : State} (h : fetchStep s = .continued s) (k : Nat) : run k s = .outOfFuel s := by
  induction k with
  | zero => rfl
  | succ k ih => rw [run_succ_of_continued k h, ih]

/-- A JMP whose target is its own address leaves the state as it is. -/
theorem fetchStep_jmp_self {s : State} {m : Mode} {o : Byte} (hi : fetchInstr s = some (.jmp m o))
    (ht : resolveTarget m o { s with pc := s.pc + 2 } = s.pc) : fetchStep s = .continued s := by
  refine fetchStep_eq_continued_iff_fetch.mpr ⟨_, hi, by simp, ?_⟩
  rw [step_of_fetch hi, exec_jmp, jumpTo_advance_advance, ht]

/-- Settles O48: PC as a direct target, and two bytes back from past the operand byte, are both PC. -/
theorem aJumpToItselfNeverEnds : Obligations.AJumpToItselfNeverEnds := by
  rintro s k (hi | hi)
  · exact run_of_fixed (fetchStep_jmp_self hi rfl) k
  · refine run_of_fixed (fetchStep_jmp_self hi ?_) k
    rw [resolveTarget_relative, relativeAddr_eq_add]
    bv_omega

/-- At a cell that reads 0x00 the step is NOT. -/
theorem fetchStep_of_zero {s : State} (h : s.memRead s.pc = 0) :
    fetchStep s = .continued (s.advance.loadAC (~~~ s.ac)) := by
  have hb : s.opcodeByte.toNat / 16 = 0 := by
    rw [State.opcodeByte, h]
    rfl
  have hi : fetchInstr s = some .not := decodeBytes_of_div s.operandByte hb
  exact fetchStep_eq_continued_iff_fetch.mpr ⟨.not, hi, by simp, step_of_fetch hi⟩

/-- Settles O49, by induction on the bound: NOT writes no memory, so that the next cell reads 0x00 as well. -/
theorem zeroedMemoryRunsAsNots : Obligations.ZeroedMemoryRunsAsNots := by
  intro s k hzero
  induction k generalizing s with
  | zero => exact ⟨s, rfl, by simp, rfl, rfl, rfl, rfl, rfl⟩
  | succ k ih =>
    obtain ⟨t, hrun, hpc, hac, hmem, hrs, hc, hv⟩ := ih (s.advance.loadAC (~~~ s.ac)) hzero
    refine ⟨t, (run_succ_of_continued k (fetchStep_of_zero (hzero s.pc))).trans hrun, ?_, ?_, hmem, hrs, hc, hv⟩
    · rw [hpc, State.loadAC_pc, State.advance_pc, BitVec.ofNat_add]
      ac_rfl
    · have hparity : (k + 1) % 2 = 0 ↔ ¬ k % 2 = 0 := by omega
      simp only [hac, State.loadAC_ac, BitVec.not_not, hparity, ite_not]

end Sys2Proof.Machine
end

section
/-! PROOFS. Canonical memories (10_state.md, section 7), and the memory accesses of a step: they are its effect on
memory, and the cells they read are all that it depends on (20_memory.md, sections 4, 9 and 11). -/

namespace Sys2Proof.Machine

/-! ### Canonical memories -/

theorem Memory.wfFrom_cons {lo b : Nat} {w : Byte} {m : Memory} :
    Memory.wfFrom lo ((b, w) :: m) = true ↔
      lo ≤ b ∧ b < memSize ∧ w ≠ Memory.unlisted ∧ Memory.wfFrom (b + 1) m = true := by
  simp [Memory.wfFrom, and_assoc]

/-- A canonical list of cells from `lo` on lists nothing below `lo`. -/
theorem Memory.read_of_wfFrom_of_lt {m : Memory} {lo a : Nat} (hm : Memory.wfFrom lo m = true) (ha : a < lo) :
    Memory.read m a = Memory.unlisted := by
  induction m generalizing lo with
  | nil => rfl
  | cons p m ih =>
    obtain ⟨b, w⟩ := p
    obtain ⟨hlo, -, -, htl⟩ := Memory.wfFrom_cons.mp hm
    rw [Memory.read, if_neg (by omega), ih htl (by omega)]

theorem Memory.read_head (b : Nat) (w : Byte) (m : Memory) : Memory.read ((b, w) :: m) b = w := if_pos rfl

/-- The first listed address of a canonical memory is at most that of another with the same bytes: it holds no 0x00,
and below its own first address the other reads as 0x00. -/
theorem Memory.head_le_of_read_eq {b b' : Nat} {w w' : Byte} {m m' : Memory} {lo : Nat}
    (hm : Memory.wfFrom lo ((b, w) :: m) = true) (hm' : Memory.wfFrom lo ((b', w') :: m') = true)
    (h : ∀ a < memSize, Memory.read ((b, w) :: m) a = Memory.read ((b', w') :: m') a) : b' ≤ b := by
  obtain ⟨-, hb, hw, -⟩ := Memory.wfFrom_cons.mp hm
  obtain ⟨-, hb', hw', htl'⟩ := Memory.wfFrom_cons.mp hm'
  by_contra hlt
  have hfrom : Memory.wfFrom b' ((b', w') :: m') = true := Memory.wfFrom_cons.mpr ⟨le_rfl, hb', hw', htl'⟩
  have hread := h b hb
  rw [Memory.read_head, Memory.read_of_wfFrom_of_lt hfrom (by omega)] at hread
  exact hw hread

/-- The lists are compared entry by entry: equal bytes make the first entries equal, and then the rest. -/
theorem Memory.eq_of_wfFrom_of_read_eq {m m' : Memory} {lo : Nat} (hm : Memory.wfFrom lo m = true)
    (hm' : Memory.wfFrom lo m' = true) (h : ∀ a < memSize, Memory.read m a = Memory.read m' a) : m = m' := by
  induction m generalizing lo m' with
  | nil =>
    cases m' with
    | nil => rfl
    | cons p' m' =>
      obtain ⟨b', w'⟩ := p'
      obtain ⟨-, hb', hw', -⟩ := Memory.wfFrom_cons.mp hm'
      exact absurd ((Memory.read_head b' w' m').symm.trans (h b' hb').symm) hw'
  | cons p m ih =>
    obtain ⟨b, w⟩ := p
    obtain ⟨-, hb, hw, htl⟩ := Memory.wfFrom_cons.mp hm
    cases m' with
    | nil => exact absurd ((Memory.read_head b w m).symm.trans (h b hb)) hw
    | cons p' m' =>
      obtain ⟨b', w'⟩ := p'
      obtain ⟨-, -, -, htl'⟩ := Memory.wfFrom_cons.mp hm'
      obtain rfl : b = b' := Nat.le_antisymm
        (Memory.head_le_of_read_eq hm' hm fun a ha => (h a ha).symm) (Memory.head_le_of_read_eq hm hm' h)
      obtain rfl : w = w' := by simpa [Memory.read_head] using h b hb
      have htail : ∀ a < memSize, Memory.read m a = Memory.read m' a := by
        intro a ha
        by_cases hab : a = b
        · rw [Memory.read_of_wfFrom_of_lt htl (by omega), Memory.read_of_wfFrom_of_lt htl' (by omega)]
        · simpa [Memory.read, hab] using h a ha
      rw [ih htl htl' htail]

/-- Settles O31: every cell number below 256 is an address. -/
theorem canonicalMemoriesAreDeterminedByTheirCells : Obligations.CanonicalMemoriesAreDeterminedByTheirCells := by
  intro m m' hm hm' h
  refine Memory.eq_of_wfFrom_of_read_eq hm hm' fun a ha => ?_
  simpa [BitVec.toNat_ofNat, Nat.mod_eq_of_lt ha] using h (BitVec.ofNat 8 a)

/-! ### The shape of an access list -/

/-- The store at the end of an instruction's accesses, where it stores. -/
def storeAccess (i : Instr) (s : State) : List Access := ((storeAddr i s).map (.write · s.ac)).toList

/-- A list of accesses without a write. -/
def ReadsOnly (l : List Access) : Prop := ∃ as : List Addr, l = as.map .read

theorem ReadsOnly.append {l l' : List Access} (h : ReadsOnly l) (h' : ReadsOnly l') : ReadsOnly (l ++ l') := by
  obtain ⟨as, rfl⟩ := h
  obtain ⟨as', rfl⟩ := h'
  exact ⟨as ++ as', List.map_append.symm⟩

theorem readsOnly_operandReads (a : Addr) : ReadsOnly (operandReads a) := ⟨[a, a + 1], rfl⟩

theorem readsOnly_pointerReads (m : Mode) (o : Byte) : ReadsOnly (pointerReads m o) := by
  cases m with
  | indirect => exact ⟨[o], rfl⟩
  | immediate | direct | relative => exact ⟨[], rfl⟩

theorem readsOnly_valueAccesses (m : Mode) (o : Byte) (s : State) : ReadsOnly (valueAccesses m o s) :=
  (readsOnly_operandReads _).append ((readsOnly_pointerReads m o).append ⟨_, rfl⟩)

theorem readsOnly_jumpAccesses (m : Mode) (o : Byte) (s : State) : ReadsOnly (jumpAccesses m o s) :=
  (readsOnly_operandReads _).append (readsOnly_pointerReads m o)

theorem readsOnly_condAccesses (f : Bool) (m : Mode) (o : Byte) (s : State) : ReadsOnly (condAccesses f m o s) := by
  cases f with
  | true => exact readsOnly_jumpAccesses m o s
  | false => exact ⟨[s.pc], rfl⟩

/-- The accesses of an instruction are reads, and then its store. -/
theorem exists_accesses_eq (i : Instr) (s : State) :
    ∃ l, ReadsOnly l ∧ accesses i s = l ++ storeAccess i s := by
  cases i
  case not | rts | hlt => exact ⟨[.read s.pc], ⟨[s.pc], rfl⟩, rfl⟩
  case sta m o =>
    cases hea : resolveAddr m o s.advance.advance with
    | none =>
      exact ⟨[.read s.pc], ⟨[s.pc], rfl⟩, by simp [accesses, storeAccesses, storeAccess, storeAddr, hea]⟩
    | some ea =>
      exact ⟨operandReads s.pc ++ pointerReads m o, (readsOnly_operandReads _).append (readsOnly_pointerReads m o),
        by simp [accesses, storeAccesses, storeAccess, storeAddr, hea]⟩
  case lda | add | or | and => exact ⟨_, readsOnly_valueAccesses _ _ s, (List.append_nil _).symm⟩
  case jmp | jsr => exact ⟨_, readsOnly_jumpAccesses _ _ s, (List.append_nil _).symm⟩
  case jc | jn | jz | jv => exact ⟨_, readsOnly_condAccesses _ _ _ s, (List.append_nil _).symm⟩

theorem applyAccesses_append_of_readsOnly {l : List Access} (h : ReadsOnly l) (l' : List Access) (m : Memory) :
    applyAccesses (l ++ l') m = applyAccesses l' m := by
  obtain ⟨as, rfl⟩ := h
  induction as with
  | nil => rfl
  | cons a as ih => exact ih

/-- What an instruction's accesses leave in a memory is its store. -/
theorem applyAccesses_accesses (i : Instr) (s : State) (m : Memory) :
    applyAccesses (accesses i s) m = (storeAddr i s).elim m fun ea => Memory.write m ea.toNat s.ac := by
  obtain ⟨l, hl, heq⟩ := exists_accesses_eq i s
  rw [heq, applyAccesses_append_of_readsOnly hl, storeAccess]
  cases storeAddr i s <;> rfl

theorem stepAccesses_of_fetch {s : State} {i : Instr} (h : fetchInstr s = some i) : stepAccesses s = accesses i s := by
  simp [stepAccesses, h]

/-- A write in a list of reads with at most one access after them is that access, and reads stand before it. -/
theorem eq_nil_of_readsOnly_append_eq {l l1 l2 : List Access} {w : Option Access} {a : Addr} {v : Byte}
    (hl : ReadsOnly l) (h : l ++ w.toList = l1 ++ .write a v :: l2) : l2 = [] ∧ ∀ b x, Access.write b x ∉ l1 := by
  obtain ⟨as, rfl⟩ := hl
  induction as generalizing l1 with
  | nil =>
    cases w with
    | none => simp at h
    | some x =>
      cases l1 with
      | nil => exact ⟨(List.cons.inj h).2.symm, nofun⟩
      | cons y l1 => simp at h
  | cons c as ih =>
    cases l1 with
    | nil => simp at h
    | cons y l1 =>
      obtain ⟨rfl, htl⟩ := List.cons.inj h
      obtain ⟨hl2, hl1⟩ := ih htl
      exact ⟨hl2, by simpa using hl1⟩

/-- Settles O42: `exec_mem` and `applyAccesses_accesses` say the same of memory, and the list has the shape that
`exists_accesses_eq` gives. -/
theorem memoryAfterAStepIsItsAccessesApplied : Obligations.MemoryAfterAStepIsItsAccessesApplied := by
  refine ⟨fun s t h => ?_, fun s l1 l2 a v h => ?_⟩
  · obtain ⟨i, hi, hex⟩ := step_eq_next h
    rw [stepAccesses_of_fetch hi, applyAccesses_accesses, exec_mem hex]
  · cases hi : fetchInstr s with
    | none =>
      have hread : stepAccesses s = [.read s.pc] ++ (none : Option Access).toList := by simp [stepAccesses, hi]
      exact eq_nil_of_readsOnly_append_eq ⟨[s.pc], rfl⟩ (hread.symm.trans h)
    | some i =>
      obtain ⟨l, hl, heq⟩ := exists_accesses_eq i s
      exact eq_nil_of_readsOnly_append_eq hl (heq.symm.trans ((stepAccesses_of_fetch hi).symm.trans h))

/-! ### A store and the next fetch -/

/-- Settles O44: what the two cells at the new PC read after the store, and the whole next state. -/
theorem storeIsSeenByTheNextFetch : Obligations.StoreIsSeenByTheNextFetch := by
  intro s t m o ea hi hea h
  rw [step_of_fetch hi, exec_sta_of_resolveAddr hea] at h
  obtain rfl := Host.Outcome.next.inj h
  have hne : s.pc + 2 ≠ s.pc + 3 := by simp
  have hfetch : fetchInstr (({ s with pc := s.pc + 2 } : State).memWrite ea s.ac) =
      decodeBytes (if s.pc + 2 = ea then s.ac else s.memRead (s.pc + 2))
        (if s.pc + 3 = ea then s.ac else s.memRead (s.pc + 3)) := by
    rw [fetchInstr, State.opcodeByte, State.operandByte, State.memRead_memWrite, State.memRead_memWrite]
    simp only [State.memWrite_pc, BitVec.add_assoc]
    rfl
  refine ⟨?_, ?_, fun _ => ⟨rfl, by rw [State.memRead_memWrite, if_pos rfl]⟩⟩
  · rintro rfl
    rw [hfetch, if_pos rfl, if_neg hne.symm]
  · rintro rfl
    rw [hfetch, if_neg hne, if_pos rfl]

end Sys2Proof.Machine
end

section
/-! PROOFS. Noninterference: a step depends on no memory cell but those its accesses read (20_memory.md, sections 4 and
11; the decisions D7 and D12 of the spec). -/

namespace Sys2Proof.Machine

/-! ### The same state with another memory -/

/-- The state with another memory and the same registers and flags. -/
def State.withMem (s : State) (m : Memory) : State := { s with mem := m }

@[simp] theorem State.withMem_pc (s : State) (m : Memory) : (s.withMem m).pc = s.pc := rfl
@[simp] theorem State.withMem_ac (s : State) (m : Memory) : (s.withMem m).ac = s.ac := rfl

@[simp] theorem State.advance_withMem (s : State) (m : Memory) : (s.withMem m).advance = s.advance.withMem m := rfl

@[simp] theorem State.loadAC_withMem (s : State) (m : Memory) (x : Byte) :
    (s.withMem m).loadAC x = (s.loadAC x).withMem m := rfl

@[simp] theorem State.setCV_withMem (s : State) (m : Memory) (p q : Bool) :
    (s.withMem m).setCV p q = (s.setCV p q).withMem m := rfl

@[simp] theorem State.setPC_withMem (s : State) (m : Memory) (a : Addr) :
    (s.withMem m).setPC a = (s.setPC a).withMem m := rfl

@[simp] theorem State.setRS_withMem (s : State) (m : Memory) (a : Addr) :
    (s.withMem m).setRS a = (s.setRS a).withMem m := rfl

/-- A store into the other memory is that memory with the same write. -/
theorem State.memWrite_withMem (s : State) (m : Memory) (a : Addr) (v : Byte) :
    (s.withMem m).memWrite a v = (s.memWrite a v).withMem (Memory.write m a.toNat v) := rfl

/-- The memory `m` holds the bytes of the state in every cell that the accesses read. -/
def AgreesOn (l : List Access) (s : State) (m : Memory) : Prop :=
  ∀ a : Addr, .read a ∈ l → Memory.read m a.toNat = s.memRead a

theorem AgreesOn.mono {l l' : List Access} {s : State} {m : Memory} (h : AgreesOn l' s m) (hl : l ⊆ l') :
    AgreesOn l s m :=
  fun a ha => h a (hl ha)

theorem AgreesOn.memRead {l : List Access} {s : State} {m : Memory} (h : AgreesOn l s m) {a : Addr}
    (ha : .read a ∈ l) : (s.withMem m).memRead a = s.memRead a :=
  h a ha

/-! ### Operand resolution -/

theorem resolveAddr_withMem {mode : Mode} {o : Byte} {s : State} {m : Memory}
    (h : AgreesOn (pointerReads mode o) s m) : resolveAddr mode o (s.withMem m) = resolveAddr mode o s := by
  cases mode with
  | indirect => exact congrArg some (h.memRead (List.mem_singleton_self _))
  | immediate | direct | relative => rfl

theorem resolveTarget_withMem {mode : Mode} {o : Byte} {s : State} {m : Memory}
    (h : AgreesOn (pointerReads mode o) s m) : resolveTarget mode o (s.withMem m) = resolveTarget mode o s := by
  cases mode with
  | indirect => exact h.memRead (List.mem_singleton_self _)
  | immediate | direct | relative => rfl

theorem resolveValue_withMem {mode : Mode} {o : Byte} {s : State} {m : Memory}
    (h : AgreesOn (valueReads mode o s) s m) : resolveValue mode o (s.withMem m) = resolveValue mode o s := by
  cases mode with
  | immediate => rfl
  | direct | relative => exact h.memRead (List.mem_singleton_self _)
  | indirect =>
    rw [valueReads_indirect] at h
    rw [resolveValue_indirect, resolveValue_indirect, h.memRead (a := o) (by simp),
      h.memRead (a := s.memRead o) (by simp)]

theorem jumpTo_withMem {mode : Mode} {o : Byte} {s : State} {m : Memory} (h : AgreesOn (pointerReads mode o) s m) :
    jumpTo mode o (s.withMem m) = (jumpTo mode o s).withMem m := by
  rw [jumpTo, resolveTarget_withMem h, State.setPC_withMem, jumpTo]

/-! ### The cells that each kind of instruction reads -/

theorem valueReads_subset (m : Mode) (o : Byte) (s : State) :
    valueReads m o s.advance.advance ⊆ valueAccesses m o s :=
  List.subset_append_right _ _

theorem pointerReads_subset_valueAccesses (m : Mode) (o : Byte) (s : State) :
    pointerReads m o ⊆ valueAccesses m o s :=
  List.Subset.trans (List.subset_append_left _ _) (valueReads_subset m o s)

theorem pointerReads_subset_jumpAccesses (m : Mode) (o : Byte) (s : State) : pointerReads m o ⊆ jumpAccesses m o s :=
  List.subset_append_right _ _

/-- In Immediate mode, where STA faults, there is no pointer. -/
theorem pointerReads_subset_storeAccesses (m : Mode) (o : Byte) (s : State) :
    pointerReads m o ⊆ storeAccesses m o s := by
  cases m with
  | immediate => exact List.nil_subset _
  | direct | indirect | relative =>
    exact List.Subset.trans (List.subset_append_right _ _) (List.subset_append_left _ _)

/-! ### One instruction in two memories -/

theorem valueAccesses_withMem {mode : Mode} {o : Byte} {s : State} {m : Memory}
    (h : AgreesOn (valueAccesses mode o s) s m) : valueAccesses mode o (s.withMem m) = valueAccesses mode o s := by
  have haddr : resolveAddr mode o (s.advance.advance.withMem m) = resolveAddr mode o s.advance.advance :=
    resolveAddr_withMem (h.mono (pointerReads_subset_valueAccesses mode o s))
  simp [valueAccesses, valueReads, haddr]

theorem storeAccesses_withMem {mode : Mode} {o : Byte} {s : State} {m : Memory}
    (h : AgreesOn (storeAccesses mode o s) s m) : storeAccesses mode o (s.withMem m) = storeAccesses mode o s := by
  have haddr : resolveAddr mode o (s.advance.advance.withMem m) = resolveAddr mode o s.advance.advance :=
    resolveAddr_withMem (h.mono (pointerReads_subset_storeAccesses mode o s))
  simp [storeAccesses, haddr]

/-- The accesses themselves depend on no cell but those they read. -/
theorem accesses_withMem {i : Instr} {s : State} {m : Memory} (h : AgreesOn (accesses i s) s m) :
    accesses i (s.withMem m) = accesses i s := by
  cases i
  case sta => exact storeAccesses_withMem h
  case lda | add | or | and => exact valueAccesses_withMem h
  all_goals rfl

theorem jumpIf_withMem {f : Bool} {mode : Mode} {o : Byte} {s : State} {m : Memory}
    (h : AgreesOn (condAccesses f mode o s) s m) :
    jumpIf f mode o (s.withMem m) = (jumpIf f mode o s).withMem m := by
  cases f with
  | false => rfl
  | true => exact jumpTo_withMem (s := s.advance.advance) (h.mono (pointerReads_subset_jumpAccesses mode o s))

/-- An instruction that completes does the same in another memory that agrees on the cells it reads, and leaves
that memory with its own store. -/
theorem exec_withMem {i : Instr} {s t : State} {m : Memory} (hagree : AgreesOn (accesses i s) s m)
    (h : exec i s = .next t) : exec i (s.withMem m) = .next (t.withMem (applyAccesses (accesses i s) m)) := by
  rw [applyAccesses_accesses]
  cases i
  case sta mode o =>
    obtain ⟨ea, hea, rfl⟩ := exec_sta_eq_next.mp h
    have haddr : resolveAddr mode o (s.advance.advance.withMem m) = some ea :=
      (resolveAddr_withMem (s := s.advance.advance)
        (hagree.mono (pointerReads_subset_storeAccesses mode o s))).trans hea
    rw [storeAddr, hea]
    exact exec_sta_eq_next.mpr ⟨ea, haddr, State.memWrite_withMem s.advance.advance m ea s.ac⟩
  case lda mode o | add mode o | or mode o | and mode o =>
    obtain rfl := Host.Outcome.next.inj h
    have hvalue := resolveValue_withMem (s := s.advance.advance) (hagree.mono (valueReads_subset mode o s))
    simp [hvalue, storeAddr]
  case jmp mode o =>
    obtain rfl := Host.Outcome.next.inj h
    exact congrArg _ (jumpTo_withMem (s := s.advance.advance)
      (hagree.mono (pointerReads_subset_jumpAccesses mode o s)))
  case jsr mode o =>
    obtain rfl := Host.Outcome.next.inj ((exec_jsr _ _ _).symm.trans h)
    have hjump := jumpTo_withMem (s := s.advance.advance) (hagree.mono (pointerReads_subset_jumpAccesses mode o s))
    simp [hjump, storeAddr]
  case jc | jn | jz | jv =>
    obtain rfl := Host.Outcome.next.inj h
    exact congrArg _ (jumpIf_withMem hagree)
  case not | rts | hlt =>
    obtain rfl := Host.Outcome.next.inj h
    rfl

/-! ### The fetch in two memories -/

/-- Every instruction begins with the read of its opcode byte. -/
theorem opcode_read_mem_accesses (i : Instr) (s : State) : .read s.pc ∈ accesses i s := by
  have hcond (f : Bool) (m : Mode) (o : Byte) : .read s.pc ∈ condAccesses f m o s := by
    cases f <;> exact List.mem_cons_self
  cases i
  case sta mode o => cases mode <;> exact List.mem_cons_self
  case jc | jn | jz | jv => exact hcond _ _ _
  all_goals exact List.mem_cons_self

theorem operand_read_mem_append (a : Addr) (l : List Access) : .read (a + 1) ∈ operandReads a ++ l :=
  List.mem_append_left _ (List.mem_cons_of_mem _ List.mem_cons_self)

/-- A conditional jump reads its operand byte, or is not taken and does not depend on it (the spec's decision D7). -/
theorem condAccesses_operand (f : Bool) (m : Mode) (o : Byte) (s : State) :
    .read (s.pc + 1) ∈ condAccesses f m o s ∨
      ∀ o', condAccesses f m o' s = condAccesses f m o s ∧ jumpIf f m o' s = jumpIf f m o s := by
  cases f with
  | true => exact .inl (operand_read_mem_append _ _)
  | false => exact .inr fun _ => ⟨rfl, rfl⟩

/-- An instruction reads its operand byte, or does the same whatever that byte is. -/
theorem operand_read_or_ignored (i : Instr) (s : State) :
    .read (s.pc + 1) ∈ accesses i s ∨
      ∀ o', accesses (i.withOperand o') s = accesses i s ∧ exec (i.withOperand o') s = exec i s := by
  cases i
  case not | rts | hlt => exact .inr fun _ => ⟨rfl, rfl⟩
  case sta mode o =>
    cases mode with
    | immediate => exact .inr fun _ => ⟨rfl, rfl⟩
    | direct | indirect | relative =>
      exact .inl (List.mem_append_left _ (operand_read_mem_append _ _))
  case lda | add | or | and | jmp | jsr => exact .inl (operand_read_mem_append _ _)
  case jc m o | jn m o | jz m o | jv m o =>
    exact (condAccesses_operand _ m o s).imp id fun h o' => ⟨(h o').1, congrArg Host.Outcome.next (h o').2⟩

/-- In a memory that agrees on the cells an instruction reads, the fetch finds one that does the same. -/
theorem fetchInstr_withMem {i : Instr} {s : State} {m : Memory} (hi : fetchInstr s = some i)
    (hagree : AgreesOn (accesses i s) s m) :
    ∃ i', fetchInstr (s.withMem m) = some i' ∧ accesses i' s = accesses i s ∧ exec i' s = exec i s := by
  have hopcode : (s.withMem m).opcodeByte = s.opcodeByte := hagree.memRead (opcode_read_mem_accesses i s)
  have hfetch : fetchInstr (s.withMem m) = some (i.withOperand (s.withMem m).operandByte) := by
    rw [fetchInstr, hopcode]
    exact decodeBytes_withOperand _ hi
  refine ⟨_, hfetch, ?_⟩
  obtain hread | hignored := operand_read_or_ignored i s
  · have hoperand : (s.withMem m).operandByte = s.operandByte := hagree.memRead hread
    have hself : i.withOperand s.operandByte = i :=
      Option.some.inj ((decodeBytes_withOperand s.operandByte hi).symm.trans hi)
    rw [hoperand, hself]
    exact ⟨rfl, rfl⟩
  · exact hignored _

/-- Settles O43: the other memory gives an instruction that does the same, and that instruction does the same in both
memories. -/
theorem stepDependsOnlyOnTheCellsItReads : Obligations.StepDependsOnlyOnTheCellsItReads := by
  intro s t m hagree h
  obtain ⟨i, hi, hex⟩ := step_eq_next h
  rw [stepAccesses_of_fetch hi] at hagree ⊢
  obtain ⟨i', hi', hacc, hexec⟩ := fetchInstr_withMem hi hagree
  rw [← hacc] at hagree ⊢
  exact ⟨(stepAccesses_of_fetch hi').trans (accesses_withMem hagree),
    (step_of_fetch hi').trans (exec_withMem hagree (hexec.trans hex))⟩

end Sys2Proof.Machine
end

section
/-! PROOFS. The assembler: literals, operand lines, the two passes and loading (40_assembler.md;
70_reset_and_hazards.md, section 2). -/

namespace Sys2Proof.Machine

/-! ### Literals -/

theorem digitsFrom_append (base : Nat) (digit : Char → Option Nat) (acc : Nat) (l l' : List Char) :
    digitsFrom base digit acc (l ++ l') = (digitsFrom base digit acc l).bind (digitsFrom base digit · l') := by
  induction l generalizing acc with
  | nil => rfl
  | cons ch l ih =>
    rw [List.cons_append, digitsFrom, digitsFrom]
    cases digit ch with
    | none => rfl
    | some d => exact ih _

/-- Digits followed by one more character: a digit puts its value at the end, any other character fails. -/
theorem digitsValue_append_singleton (base : Nat) (digit : Char → Option Nat) (l : List Char) (ch : Char) :
    digitsValue base digit (l ++ [ch]) =
      (digitsFrom base digit 0 l).bind fun k => (digit ch).map (k * base + ·) := by
  have hne : (l ++ [ch]).isEmpty = false := by simp
  rw [digitsValue, hne, if_neg Bool.false_ne_true, digitsFrom_append]
  congr 1
  funext k
  cases h : digit ch <;> simp [digitsFrom, h]

/-- The digits 0 and 1 are hexadecimal digits. -/
theorem exists_digitsFrom_of_binary {l : List Char} (acc : Nat) (h : ∀ d ∈ l, d = '0' ∨ d = '1') :
    ∃ k, digitsFrom 16 hexDigit acc l = some k := by
  induction l generalizing acc with
  | nil => exact ⟨acc, rfl⟩
  | cons d l ih =>
    obtain ⟨hd, hl⟩ := List.forall_mem_cons.mp h
    obtain rfl | rfl := hd
    · exact ih (acc * 16 + 0) hl
    · exact ih (acc * 16 + 1) hl

theorem stripHash_of_not_mem {t : Token} (h : '#' ∉ t) : stripHash t = t := by
  unfold stripHash
  split
  · exact absurd List.mem_cons_self h
  · rfl

theorem prefixedHex_of_not_mem {t : Token} (h : 'x' ∉ t) : prefixedHex t = none := by
  unfold prefixedHex
  split
  · exact absurd (List.mem_cons_of_mem _ List.mem_cons_self) h
  · rfl

/-- Strategy 3 reads the token where neither decimal digits nor `0x` do (R76). -/
theorem parseNumber_of_hex {t : Token} {k : Nat} (hdec : digitsValue 10 decDigit t = none) (hx : 'x' ∉ t)
    (hhex : digitsValue 16 hexDigit t = some k) : parseNumber t = some k := by
  simp [parseNumber, hdec, prefixedHex_of_not_mem hx, hhex]

theorem parseValue_of_number {table : SymbolTable} {t : Token} {k : Nat} (h : parseNumber (stripHash t) = some k) :
    parseValue table t = some (BitVec.ofNat 8 k) := by
  simp [parseValue, h]

/-- Settles O50: the letter is no decimal digit, so that decimal fails, and it is the hexadecimal digit 11, so that
the strategy before the binary one succeeds. -/
theorem aBinarySuffixIsReadAsAHexDigit : Obligations.ABinarySuffixIsReadAsAHexDigit := by
  intro table digits ch hdigits hch
  obtain ⟨k, hk⟩ := exists_digitsFrom_of_binary 0 hdigits
  have hB : decDigit ch = none ∧ hexDigit ch = some 11 := by obtain rfl | rfl := hch <;> decide
  have hchars : ∀ c ∈ digits ++ [ch], c = '0' ∨ c = '1' ∨ c = 'B' ∨ c = 'b' := by
    intro c hc
    obtain hc | hc := List.mem_append.mp hc
    · exact (hdigits c hc).imp id .inl
    · obtain rfl := List.mem_singleton.mp hc
      exact .inr (.inr hch)
  have hhash : '#' ∉ digits ++ [ch] := fun h => absurd (hchars _ h) (by decide)
  have hx : 'x' ∉ digits ++ [ch] := fun h => absurd (hchars _ h) (by decide)
  have hdec : digitsValue 10 decDigit (digits ++ [ch]) = none := by
    rw [digitsValue_append_singleton, hB.1]
    simp
  have hhex : digitsValue 16 hexDigit (digits ++ [ch]) = some (16 * k + 11) := by
    rw [digitsValue_append_singleton, hk, hB.2, Nat.mul_comm 16 k]
    rfl
  have hnum := parseNumber_of_hex hdec hx hhex
  exact ⟨k, hhex, parseValue_of_number (by rw [stripHash_of_not_mem hhash, hnum]), parseValue_of_number hnum⟩

/-! ### Operand lines -/

/-- The two bytes of a mnemonic with an operand (R90). -/
theorem bytesOf_mnemonic_operand {table : SymbolTable} {name tok : Token} {op : BitVec 4} {b : Byte}
    (hop : opcodeOf name = some op) (hb : parseValue table (stripSuffix tok) = some b) :
    bytesOf table (.mnemonic name (some tok)) = .ok [encodeFields op (addressingMode tok), b] := by
  simp [bytesOf, hop, hb]

/-- Settles O51: the opcode byte that is emitted names an instruction of two bytes, whose fields are the emitted
ones. -/
theorem anOperandLineAssemblesToItsInstruction : Obligations.AnOperandLineAssemblesToItsInstruction := by
  intro table name tok op b hop hlen hb
  have hfield := opcodeField_encodeFields op (addressingMode tok)
  have hlen' : lengthOfOpcode (opcodeField (encodeFields op (addressingMode tok))) = some 2 := by rw [hfield, hlen]
  obtain ⟨i, hi, hsize⟩ := exists_decodeBytes_of_length b hlen'
  obtain ⟨hopcode, ⟨hone, -⟩ | ⟨-, hmode, hopnd⟩⟩ := instrOfFields_eq_some hi
  · omega
  · rw [hfield] at hopcode
    rw [modeField_encodeFields] at hmode
    exact ⟨i, _, bytesOf_mnemonic_operand hop hb, decode_of_length_two [] hlen' hi, hopcode, hmode, hopnd,
      encode_of_operand hopnd (by rw [hopcode, hmode])⟩

/-! ### Pass 1 and the labels -/

/-- The first entry for a label counts. -/
theorem SymbolTable.find_append (t t' : SymbolTable) (name : Token) :
    SymbolTable.find (t ++ t') name = (SymbolTable.find t name).or (SymbolTable.find t' name) := by
  induction t with
  | nil => rfl
  | cons p t ih =>
    obtain ⟨l, a⟩ := p
    rw [List.cons_append, SymbolTable.find, SymbolTable.find]
    split
    · rfl
    · exact ih

/-- A line's label is new and is put at the end of the table; a line without one leaves the table. -/
theorem addLabel_eq_ok {table table' : SymbolTable} {label : Option Token} {a : Addr}
    (h : addLabel table label a = .ok table') :
    (label = none ∧ table' = table) ∨
      ∃ l, label = some l ∧ SymbolTable.find table l = none ∧ table' = table ++ [(l, a)] := by
  cases label with
  | none => exact .inl ⟨rfl, (Except.ok.inj h).symm⟩
  | some l =>
    rw [addLabel] at h
    split at h
    · exact nomatch h
    · next hl => exact .inr ⟨l, rfl, by simpa using hl, (Except.ok.inj h).symm⟩

theorem find_of_addLabel {table table' : SymbolTable} {label : Option Token} {a b : Addr} {name : Token}
    (h : addLabel table label a = .ok table') (hfind : SymbolTable.find table name = some b) :
    SymbolTable.find table' name = some b := by
  obtain ⟨-, rfl⟩ | ⟨l, -, -, rfl⟩ := addLabel_eq_ok h
  · exact hfind
  · rw [SymbolTable.find_append, hfind, Option.some_or]

/-- The label that a line defines stands for the counter. -/
theorem find_addLabel_self {table table' : SymbolTable} {name : Token} {a : Addr}
    (h : addLabel table (some name) a = .ok table') : SymbolTable.find table' name = some a := by
  obtain ⟨hnone, -⟩ | ⟨l, hl, hnew, rfl⟩ := addLabel_eq_ok h
  · exact nomatch hnone
  · obtain rfl := Option.some.inj hl
    rw [SymbolTable.find_append, hnew, Option.none_or, SymbolTable.find, if_pos rfl]

/-- A line that pass 1 gets past: its label is added, it has an admitted form, and the bookkeeping goes on. -/
theorem pass1_cons_eq_ok {ov : AddrOverflow} {l : Line} {rest : List Line} {cur : Cursor} {table table' : SymbolTable}
    (h : pass1 ov (l :: rest) cur table = .ok table') :
    ∃ mid st cur', addLabel table l.label cur.addr = .ok mid ∧ l.stmt = some st ∧ track ov cur st = .ok cur' ∧
      pass1 ov rest cur' mid = .ok table' := by
  rw [pass1] at h
  split at h
  · exact nomatch h
  · exact nomatch h
  · next mid st hmid hst =>
    split at h
    · exact nomatch h
    · next cur' hcur => exact ⟨mid, st, cur', hmid, hst, hcur, h⟩

/-- Pass 1 only adds labels. -/
theorem find_of_pass1 {ov : AddrOverflow} {lines : List Line} {cur : Cursor} {table table' : SymbolTable}
    {name : Token} {a : Addr} (h : pass1 ov lines cur table = .ok table')
    (hfind : SymbolTable.find table name = some a) : SymbolTable.find table' name = some a := by
  induction lines generalizing cur table with
  | nil =>
    rw [pass1] at h
    split at h
    · exact nomatch h
    · rwa [← Except.ok.inj h]
  | cons l rest ih =>
    obtain ⟨mid, st, cur', hmid, -, -, hrest⟩ := pass1_cons_eq_ok h
    exact ih hrest (find_of_addLabel hmid hfind)

/-- Settles O52, by induction on the lines before the label's, from any cursor and table. -/
theorem aLabelStandsForTheAddressOfItsLine : Obligations.ALabelStandsForTheAddressOfItsLine := by
  intro ov before after l name table hlabel h
  generalize Cursor.start = start at h ⊢
  generalize ([] : SymbolTable) = table0 at h
  induction before generalizing start table0 with
  | nil =>
    obtain ⟨mid, st, cur', hmid, -, -, hrest⟩ := pass1_cons_eq_ok h
    rw [hlabel] at hmid
    exact ⟨start, rfl, find_of_pass1 hrest (find_addLabel_self hmid)⟩
  | cons x before ih =>
    obtain ⟨mid, st, cur', -, hst, hcur, hrest⟩ := pass1_cons_eq_ok h
    obtain ⟨cur, hfold, hfind⟩ := ih cur' mid hrest
    refine ⟨cur, ?_, hfind⟩
    rw [List.foldlM_cons, hst, Option.getD_some, hcur]
    exact hfold

/-- Settles O54: with no section open the bookkeeping refuses the line, and no label is defined before it. -/
theorem aMnemonicBeforeAnySectionFails : Obligations.AMnemonicBeforeAnySectionFails := by
  intro ov src l rest name operand hlines hst
  have hadd : ∃ mid, addLabel [] l.label Cursor.start.addr = .ok mid := by
    cases l.label with
    | none => exact ⟨_, rfl⟩
    | some n => exact ⟨_, rfl⟩
  obtain ⟨mid, hmid⟩ := hadd
  have hpass : pass1 ov (l :: rest) .start [] = .error ⟨some l.number, .outsideSection⟩ := by
    rw [pass1, hmid, hst]
    rfl
  exact ⟨_, by rw [assemble, assembleInto, hlines, hpass], rfl, rfl⟩

/-! ### Bytes in memory -/

theorem toNat_add_one {a : Addr} (h : a.toNat + 1 ≤ 255) : (a + 1).toNat = a.toNat + 1 := by
  bv_omega

/-- Bytes stored up to the end of memory leave every other cell alone. -/
theorem read_emitBytes_of_outside {m : Memory} {a : Addr} {bytes : List Byte} {x : Nat}
    (hlen : a.toNat + bytes.length ≤ 255) (hx : x < a.toNat ∨ a.toNat + bytes.length ≤ x) :
    Memory.read (emitBytes m a bytes) x = Memory.read m x := by
  induction bytes generalizing m a with
  | nil => rfl
  | cons b bytes ih =>
    rw [List.length_cons] at hlen hx
    have hnext := toNat_add_one (a := a) (by omega)
    rw [emitBytes, ih (by omega) (by omega), Memory.read_write, if_neg (by omega)]

/-- Bytes stored up to the end of memory stand there in their order. -/
theorem read_emitBytes_of_getElem? {m : Memory} {a : Addr} {bytes : List Byte} {k : Nat} {b : Byte}
    (hlen : a.toNat + bytes.length ≤ 255) (hk : bytes[k]? = some b) :
    Memory.read (emitBytes m a bytes) (a.toNat + k) = b := by
  induction bytes generalizing m a k with
  | nil => exact nomatch hk
  | cons c bytes ih =>
    rw [List.length_cons] at hlen
    have hnext := toNat_add_one (a := a) (by omega)
    cases k with
    | zero =>
      rw [emitBytes, Nat.add_zero, read_emitBytes_of_outside (by omega) (.inl (by omega)), Memory.read_write,
        if_pos rfl]
      exact Option.some.inj hk
    | succ k =>
      rw [emitBytes, ← ih (m := Memory.write m a.toNat c) (a := a + 1) (by omega) hk, hnext, Nat.add_right_comm,
        Nat.add_assoc]

theorem emitBytes_wf {m : Memory} (a : Addr) (bytes : List Byte) (hm : m.wf = true) :
    (emitBytes m a bytes).wf = true := by
  induction bytes generalizing m a with
  | nil => exact hm
  | cons b bytes ih => exact ih _ (Memory.write_wf a.isLt hm)

/-! ### Pass 2 -/

/-- A line that pass 2 gets past: its bytes are stored and the bookkeeping goes on. -/
theorem pass2_cons {ov : AddrOverflow} {table : SymbolTable} {l : Line} {rest : List Line} {cur cur' : Cursor}
    {m : Memory} {st : Stmt} {bs : List Byte} (hst : l.stmt = some st) (hbs : bytesOf table st = .ok bs)
    (hcur : track ov cur st = .ok cur') :
    pass2 ov table (l :: rest) cur m = pass2 ov table rest cur' (emitBytes m cur.addr bs) := by
  simp [pass2, hst, hbs, hcur]

/-- A line whose bookkeeping fails ends pass 2 with its number. -/
theorem pass2_cons_of_track_error {ov : AddrOverflow} {table : SymbolTable} {l : Line} {rest : List Line}
    {cur : Cursor} {m : Memory} {st : Stmt} {bs : List Byte} {r : AsmReason} (hst : l.stmt = some st)
    (hbs : bytesOf table st = .ok bs) (hcur : track ov cur st = .error r) :
    pass2 ov table (l :: rest) cur m = .error ⟨some l.number, r⟩ := by
  simp [pass2, hst, hbs, hcur]

/-- Pass 2 succeeds on a line only by getting past it. -/
theorem pass2_cons_eq_ok {ov : AddrOverflow} {table : SymbolTable} {l : Line} {rest : List Line} {cur : Cursor}
    {m m' : Memory} (h : pass2 ov table (l :: rest) cur m = .ok m') :
    ∃ cur' bs, pass2 ov table rest cur' (emitBytes m cur.addr bs) = .ok m' := by
  rw [pass2] at h
  split at h
  · exact nomatch h
  · split at h
    · exact nomatch h
    · exact nomatch h
    · next bs cur' _ _ => exact ⟨cur', bs, h⟩

theorem pass2_wf {ov : AddrOverflow} {table : SymbolTable} {lines : List Line} {cur : Cursor} {m m' : Memory}
    (h : pass2 ov table lines cur m = .ok m') (hm : m.wf = true) : m'.wf = true := by
  induction lines generalizing cur m with
  | nil => rwa [← Except.ok.inj h]
  | cons l rest ih =>
    obtain ⟨cur', bs, hrest⟩ := pass2_cons_eq_ok h
    exact ih hrest (emitBytes_wf cur.addr bs hm)

theorem bytesOf_db {table : SymbolTable} {tok : Token} {b : Byte} (h : parseValue table tok = some b) :
    bytesOf table (.db tok) = .ok [b] := by
  simp [bytesOf, h]

/-- DB below address 255 in an open section moves the counter by one. -/
theorem track_db {ov : AddrOverflow} {cur : Cursor} (tok : Token) (hsect : cur.sect.isSome = true)
    (haddr : cur.addr.toNat + 1 ≤ 255) : track ov cur (.db tok) = .ok { cur with addr := cur.addr + 1 } := by
  have hfits : ¬ (ov = .fail ∧ memSize ≤ cur.addr.toNat + 1) := fun h => absurd (show 256 ≤ _ from h.2) (by omega)
  simp [track, hsect, Cursor.move, hfits]

/-- DB lines emit their bytes from the counter's address on. -/
theorem pass2_db_lines {ov : AddrOverflow} {table : SymbolTable} {lines : List Line} {bytes : List Byte} {cur : Cursor}
    {m : Memory}
    (h : List.Forall₂ (fun l b => ∃ tok, l.stmt = some (.db tok) ∧ parseValue table tok = some b) lines bytes)
    (hsect : cur.sect.isSome = true) (hlen : cur.addr.toNat + bytes.length ≤ 255) :
    pass2 ov table lines cur m = .ok (emitBytes m cur.addr bytes) := by
  induction h generalizing cur m with
  | nil => rfl
  | @cons l b lines bytes hl _ ih =>
    obtain ⟨tok, hst, hb⟩ := hl
    rw [List.length_cons] at hlen
    have hnext := toNat_add_one (a := cur.addr) (by omega)
    have hrest := ih (cur := { cur with addr := cur.addr + 1 }) (m := emitBytes m cur.addr [b]) hsect
      (by rw [hnext]; omega)
    exact (pass2_cons hst (bytesOf_db hb) (track_db tok hsect (by omega))).trans hrest

/-- Settles O53: the memory of `pass2_db_lines`, read inside and outside. -/
theorem dataLinesEmitTheirBytesInOrder : Obligations.DataLinesEmitTheirBytesInOrder :=
  fun _ _ _ _ _ _ h hsect hlen => ⟨_, pass2_db_lines h hsect hlen, fun _ _ hk => read_emitBytes_of_getElem? hlen hk,
    fun _ ha => read_emitBytes_of_outside hlen ha⟩

/-- DB at address 255 moves the counter to 0 where it wraps. -/
theorem track_db_wrap_last (sect : Section) (tok : Token) :
    track .wrap ⟨0xFF, some sect⟩ (.db tok) = .ok ⟨0x00, some sect⟩ := by
  simp [track, Cursor.move]

/-- DB at address 255 takes the counter past the end of memory (log entry 15). -/
theorem track_db_fail_last (sect : Section) (tok : Token) :
    track .fail ⟨0xFF, some sect⟩ (.db tok) = .error .counterPastEnd := by
  simp [track, Cursor.move, memSize]

/-- Settles O56: the bookkeeping of the line is the one part that depends on `ASM_ADDR_OVERFLOW`. -/
theorem aDataByteAtTheLastAddress : Obligations.ADataByteAtTheLastAddress := by
  intro table l rest tok b sect m hst hb
  exact ⟨pass2_cons hst (bytesOf_db hb) (track_db_wrap_last sect tok),
    pass2_cons_of_track_error hst (bytesOf_db hb) (track_db_fail_last sect tok)⟩

/-! ### Loading -/

/-- Assembly that succeeds keeps the canonical form of the memory it writes over. -/
theorem assembleInto_wf {ov : AddrOverflow} {src : List Char} {m m' : Memory} {table : SymbolTable}
    (h : assembleInto ov src m = .ok (m', table)) (hm : m.wf = true) : m'.wf = true := by
  rw [assembleInto] at h
  split at h
  · exact nomatch h
  · split at h
    · exact nomatch h
    · next hpass =>
      obtain ⟨rfl, -⟩ := Prod.mk.inj (Except.ok.inj h)
      exact pass2_wf hpass hm

/-- A load that succeeds puts the assembled memory into the state and changes nothing else of it. -/
theorem load_eq_ok {ov : AddrOverflow} {src : List Char} {m m' : Instance} (h : m.load ov src = .ok m') :
    ∃ mem, assembleInto ov src m.state.mem = .ok (mem, m'.symbols) ∧ m'.state = { m.state with mem := mem } := by
  rw [Instance.load] at h
  split at h
  · exact nomatch h
  · next hasm =>
    obtain rfl := Except.ok.inj h
    exact ⟨_, hasm, rfl⟩

theorem load_frame {ov : AddrOverflow} {src : List Char} {m m' : Instance} (h : m.load ov src = .ok m') :
    m'.state = { m.state with mem := m'.state.mem } ∧ (m.state.mem.wf = true → m'.state.mem.wf = true) := by
  obtain ⟨mem, hasm, hstate⟩ := load_eq_ok h
  rw [hstate]
  exact ⟨rfl, assembleInto_wf hasm⟩

/-- Settles O55: `load_frame`, and the same for the machine that reset leaves, whose memory is canonical. -/
theorem loadingTouchesMemoryAndSymbolsOnly : Obligations.LoadingTouchesMemoryAndSymbolsOnly := by
  refine ⟨fun ov src m m' h => load_frame h, fun ov src m h => ?_⟩
  obtain ⟨hstate, hwf⟩ := load_frame h
  exact ⟨hstate, hwf State.reset_mem_wf⟩

end Sys2Proof.Machine
end
